-- ==== Sys2Proof/Word.lean ====
section
/-! DEFINITION. The byte and word types (00_scope.md R9, R10, R12): a byte is 8 bits, a bus or cipher word 32. -/

namespace Sys2Proof

/-- A byte: an unsigned 8-bit value (R10). -/
abbrev Byte := BitVec 8

/-- A 32-bit word: what the bus moves (20_memory.md R89), a command word (30_encoding.md R120), an SM4 word
(44_sm4.md R300). -/
abbrev Word := BitVec 32

/-- A byte offset from the core's base address (20_memory.md R80). -/
abbrev Offset := BitVec 16

end Sys2Proof
end

