-- ==== Sys2Proof/Machine/Bytes.lean ====
section
/-! DEFINITION. Byte order and byte-sequence helpers (00_scope.md R10 to R12, 20_memory.md R82): the one place where
bytes become words and words bytes. -/

namespace Sys2Proof.Machine

/-- `be32` of R12: the first byte is most significant. -/
def be32 (b0 b1 b2 b3 : Byte) : Word := b0 ++ b1 ++ b2 ++ b3

/-- `le32` of R12: the first byte is least significant. -/
def le32 (b0 b1 b2 b3 : Byte) : Word := b3 ++ b2 ++ b1 ++ b0

/-- Bits [8j+7 : 8j] of a word (R82). -/
def lane (w : Word) (j : Nat) : Byte := w.extractLsb' (8 * j) 8

/-- `bytes_be32` of R12. -/
def bytesBe32 (w : Word) : List Byte := [lane w 3, lane w 2, lane w 1, lane w 0]

/-- Byte `i` of a sequence; 0 past its end, which no rule ever reads. -/
def byteAt (B : List Byte) (i : Nat) : Byte := B.getD i 0

/-- `B[i..j)` of R10. -/
def slice (B : List Byte) (i j : Nat) : List Byte := (B.drop i).take (j - i)

/-- `A ⊕ B` on byte sequences (R11, 42_cbc.md R226): independent byte lanes. -/
def xorBytes (A B : List Byte) : List Byte := List.zipWith (· ^^^ ·) A B

/-- `rotl32` of R11. -/
def rotl32 (x : Word) (n : Nat) : Word := (x <<< n) ||| (x >>> (32 - n))

end Sys2Proof.Machine
end

