-- ==== Sys2Proof/Config.lean ====
section
/-! DEFINITION. What an implementation fixes (00_scope.md R7, 20_memory.md R93) and the one free value, `any` of
R13. The parameters are plain data that State carries and no step changes, so a statement about every state is a
statement about every parameter choice (assumption 5). -/

namespace Sys2Proof

/-- The parameters the spec leaves to the implementation (R7, R93). BLOCK, the key sizes, the bus widths and the
SM4 IV are fixed by R7 and so are no parameters. LATENCY is no field: it is where the core's turn stands in the
schedule of State (assumption 4). -/
structure Config where
  /-- IN_BUF_BYTES -/
  inBufBytes : Nat
  /-- OUT_BUF_BYTES -/
  outBufBytes : Nat
  /-- BASE, OPEN in the spec (R93) -/
  base : Nat
  deriving DecidableEq, Repr

/-- The legal values of R7: IN_BUF_BYTES a multiple of 4 with 24 <= v <= 4096, OUT_BUF_BYTES a multiple of 4 with
IN_BUF_BYTES <= v <= 16384. -/
abbrev Config.legal (c : Config) : Prop :=
  c.inBufBytes % 4 = 0 ∧ 24 ≤ c.inBufBytes ∧ c.inBufBytes ≤ 4096 ∧
  c.outBufBytes % 4 = 0 ∧ c.inBufBytes ≤ c.outBufBytes ∧ c.outBufBytes ≤ 16384

/-- The defaults of R7. DESIGN CHOICE (assumption 5, unsafe only for a claim that rests on it): BASE is 0. -/
def Config.standard : Config := { inBufBytes := 4096, outBufBytes := 8192, base := 0 }

/-- `any` (R13): the byte an unspecified byte reads as. `draw` numbers the transaction or completion that reads,
`pos` the byte of the buffer it reads; two reads may differ (10_state.md R48, R49). No body: nothing can tell its
value (assumption 1, safe). -/
opaque Config.freeByte (draw pos : Nat) : Byte

end Sys2Proof
end

