-- ==== Sys2Proof/Syntax.lean ====
section
/-! DEFINITION. The commands of the core, one constructor for each row of spec/opcode_table.json
(30_encoding.md R125, R126). A command carries no immediates and names no registers (R127). -/

namespace Sys2Proof

/-- A command. `illegal w` is the table's row ILLEGAL, "every other 32-bit word": it keeps the word, so that the
map from words to commands loses nothing. -/
inductive Instr where
  /-- ENC.AES, word 0x00000001 (40_commands.md R160) -/
  | encAes
  /-- ENC.SM4, word 0x00000011 (R161) -/
  | encSm4
  /-- DEC.AES, word 0x00000002 (R170) -/
  | decAes
  /-- DEC.SM4, word 0x00000012 (R171) -/
  | decSm4
  /-- ILLEGAL, every other word (R180) -/
  | illegal (w : Word)
  deriving DecidableEq, Repr

end Sys2Proof
end

