-- ==== Sys2Proof/Machine/State.lean ====
section
/-! DEFINITION. The machine's state as plain data: the record of 10_state.md R31, the parameters of 00_scope.md R7, the bus
masters that run host programs (30_encoding.md R128 to R131, 20_memory.md R101), the order of the agents' turns, and
the draw counter of `any` (00_scope.md R13). -/

namespace Sys2Proof.Machine

/-- PHASE (R50). -/
inductive Phase where
  | idle
  | busy
  deriving DecidableEq, Repr

/-- The cipher selector of a command (30_encoding.md R123). -/
inductive Alg where
  | aes
  | sm4
  deriving DecidableEq, Repr

/-- The errors a command can raise (60_exceptions.md R400). Their codes are `CommandError.code`. -/
inductive CommandError where
  | invalidKeyLength
  | invalidEncoding
  | invalidCiphertextLength
  | invalidPadding
  | illegalCommand
  | lengthOverflow
  deriving DecidableEq, Repr

/-- A byte memory: the specified bytes of a buffer, keyed by index, indices strictly rising. A byte that is not
listed is unspecified (10_state.md R48, R49). -/
abbrev Memory := List Host.Cell

/-- A statement of a host program (30_encoding.md R129) and the one pseudo-statement that expands at run time,
READOUT (R130). The other pseudo-statements expand to these before the program runs (Machine/HostProgram.lean).
Labels are numbers (assumption 8). -/
inductive Stmt where
  /-- `W32 off, v` -/
  | w32 (off : Offset) (v : Word)
  /-- `R32 off` -/
  | r32 (off : Offset)
  /-- `R32 off, =v` -/
  | r32Check (off : Offset) (v : Word)
  /-- `POLL off, mask, v` -/
  | poll (off : Offset) (mask v : Word)
  /-- `JMP label` -/
  | jmp (label : Nat)
  /-- `HALT` -/
  | halt
  /-- `READOUT` -/
  | readOut
  deriving DecidableEq, Repr

/-- A line of a host program: one statement, an optional label before it (R128). Comments have no meaning. -/
structure Line where
  label : Option Nat
  stmt : Stmt
  deriving DecidableEq, Repr

/-- How a host program stands (R129). -/
inductive MasterStatus where
  /-- it has lines to run -/
  | running
  /-- it met HALT or ran past its last line: "A program ends at `HALT` or after its last line" -/
  | ended
  /-- an `R32 off, =v` read another word: "stop the program with a check failure" -/
  | checkFailed
  /-- a JMP named a label no line has (assumption 8) -/
  | noSuchLabel
  deriving DecidableEq, Repr

/-- A bus master running a host program (R128 to R131; several of them, 20_memory.md R101). -/
structure Master where
  prog : List Line
  /-- index of the line to run next -/
  pc : Nat
  /-- offsets a READOUT has still to read, before the line at `pc` runs (R130) -/
  pendingReads : List Offset
  status : MasterStatus
  /-- the words the reads returned, newest first: what a program notes (R129) -/
  reads : List Word
  deriving DecidableEq, Repr

/-- Whose step comes next (20_memory.md R96, 70_reset_and_hazards.md R450). -/
inductive Turn where
  /-- master `k` runs one statement: at most one bus transaction -/
  | master (k : Nat)
  /-- the core sequencer: the completion, if it is enabled -/
  | core
  /-- the platform asserts reset -/
  | reset
  deriving DecidableEq, Repr

/-- The state. The first block is the record of R31; STATUS.BUSY is computed from `phase` (R37). -/
structure State where
  phase : Phase
  curCmd : Word
  done : Bool
  error : Bool
  writeDropped : Bool
  errCode : BitVec 4
  keyLen : BitVec 6
  inLen : BitVec 16
  outLen : BitVec 16
  key : Vector Byte 32
  inBuf : Memory
  outBuf : Memory
  /-- the parameters of R7, changed by no step -/
  cfg : Config
  /-- the bus masters (R101) -/
  masters : List Master
  /-- the turns to come (assumption 4) -/
  schedule : List Turn
  /-- how many draws of `any` were made: the model's own field (assumption 1) -/
  draw : Nat
  deriving DecidableEq, Repr

/-- Why the machine stops with a fault. There is no reason: "no operand value, however malformed, makes the core hang,
fault the bus or need a reset" (60_exceptions.md R412), no bus error (20_memory.md R86); nobody raises one, which is
safe: a claim that a fault happens cannot be proved. -/
inductive Fault where
  deriving DecidableEq, Repr

/-- Why the machine refuses. -/
inductive Refusal where
  /-- Raised by an arm of `exec` for a command that has no meaning yet, by its mnemonic; safe: nothing can be proved
  of what the command does. No arm raises it. -/
  | notModelled (mnemonic : String)
  deriving DecidableEq, Repr

/-- The state right after reset (R55): the registers 0, the phase IDLE, every byte of both buffers unspecified.
The parameters are R7's defaults (assumption 5). DESIGN CHOICE: CUR_CMD, "don't-care", is 0 (assumption 3, never read
while IDLE); no master runs (assumption 10); the schedule is empty (assumption 4); no draw was made (assumption 1). -/
def State.reset : State where
  phase := .idle
  curCmd := 0
  done := false
  error := false
  writeDropped := false
  errCode := 0
  keyLen := 0
  inLen := 0
  outLen := 0
  key := Vector.replicate 32 0
  inBuf := []
  outBuf := []
  cfg := Config.standard
  masters := []
  schedule := []
  draw := 0

end Sys2Proof.Machine
end

