-- ==== Sys2Proof/Machine/Base64.lean ====
section
/-! DEFINITION. The base64 encoder and decoder (45_base64.md). -/

namespace Sys2Proof.Machine

/-- The pad character `=` (R340). -/
def padChar : Byte := 0x3D

/-- `char(v)`: the ASCII byte of a 6-bit value (R340). -/
def base64Char (v : BitVec 6) : Byte :=
  if v.toNat ≤ 25 then 0x41 + v.setWidth 8
  else if v.toNat ≤ 51 then 0x61 + (v.setWidth 8 - 26)
  else if v.toNat ≤ 61 then 0x30 + (v.setWidth 8 - 52)
  else if v.toNat = 62 then 0x2B
  else 0x2F

/-- `val(c)`: the 6-bit value of a base64 character, or `none` for any other byte (R340). -/
def base64Val (c : Byte) : Option (BitVec 6) :=
  if 0x41 ≤ c.toNat ∧ c.toNat ≤ 0x5A then some ((c - 0x41).setWidth 6)
  else if 0x61 ≤ c.toNat ∧ c.toNat ≤ 0x7A then some ((c - 0x61 + 26).setWidth 6)
  else if 0x30 ≤ c.toNat ∧ c.toNat ≤ 0x39 then some ((c - 0x30 + 52).setWidth 6)
  else if c = 0x2B then some 62
  else if c = 0x2F then some 63
  else none

/-- Whether a byte is one of the 64 characters (R340). -/
def isBase64Char (c : Byte) : Bool := (base64Val c).isSome

/-! ### Encoder -/

/-- The 24-bit group value `b0·2^16 + b1·2^8 + b2` (R342). -/
def groupValue (b0 b1 b2 : Byte) : BitVec 24 := b0 ++ b1 ++ b2

/-- The four characters of a 24-bit group value, before padding (R342). -/
def groupChars (v : BitVec 24) : Byte × Byte × Byte × Byte :=
  (base64Char (v.extractLsb' 18 6), base64Char (v.extractLsb' 12 6), base64Char (v.extractLsb' 6 6),
    base64Char (v.extractLsb' 0 6))

/-- `Base64Encode(B)` (R342): groups of three bytes; a last group of one byte ends in `==`, of two bytes in `=`. -/
def base64Encode : List Byte → List Byte
  | [] => []
  | [b0] =>
    let c := groupChars (groupValue b0 0 0)
    [c.1, c.2.1, padChar, padChar]
  | [b0, b1] =>
    let c := groupChars (groupValue b0 b1 0)
    [c.1, c.2.1, c.2.2.1, padChar]
  | b0 :: b1 :: b2 :: rest =>
    let c := groupChars (groupValue b0 b1 b2)
    c.1 :: c.2.1 :: c.2.2.1 :: c.2.2.2 :: base64Encode rest

/-! ### Decoder -/

/-- R344(c): a legal last group is four characters, or three then `=`, or two then `==`. -/
def lastGroupOk (c0 c1 c2 c3 : Byte) : Bool :=
  isBase64Char c0 && isBase64Char c1 &&
    ((isBase64Char c2 && isBase64Char c3) || (isBase64Char c2 && c3 == padChar) || (c2 == padChar && c3 == padChar))

/-- R344(b): a legal group before the last is four characters. -/
def innerGroupOk (c0 c1 c2 c3 : Byte) : Bool :=
  isBase64Char c0 && isBase64Char c1 && isBase64Char c2 && isBase64Char c3

/-- `Valid(T)` (R344): groups of four, the empty text valid. -/
def base64Valid : List Byte → Bool
  | [] => true
  | [c0, c1, c2, c3] => lastGroupOk c0 c1 c2 c3
  | c0 :: c1 :: c2 :: c3 :: rest => innerGroupOk c0 c1 c2 c3 && base64Valid rest
  | _ => false

/-- The value of a character, a pad position counting as 0 (R345). -/
def valOrZero (c : Byte) : BitVec 6 := (base64Val c).getD 0

/-- The number of `=` in a group (R345). -/
def padsInGroup (c2 c3 : Byte) : Nat := (if c2 = padChar then 1 else 0) + (if c3 = padChar then 1 else 0)

/-- The bytes of a group: the three bytes of its 24-bit value, less one for each pad (R345). The bits a pad discards
need not be zero (R346). -/
def groupBytes (c0 c1 c2 c3 : Byte) : List Byte :=
  let v : BitVec 24 := valOrZero c0 ++ valOrZero c1 ++ valOrZero c2 ++ valOrZero c3
  [v.extractLsb' 16 8, v.extractLsb' 8 8, v.extractLsb' 0 8].take (3 - padsInGroup c2 c3)

/-- The decoding loop of R345, over the groups of a valid text. -/
def decodeGroups : List Byte → List Byte
  | c0 :: c1 :: c2 :: c3 :: rest => groupBytes c0 c1 c2 c3 ++ decodeGroups rest
  | _ => []

/-- `Base64Decode(T)` (R345). -/
def base64Decode (T : List Byte) : Except CommandError (List Byte) :=
  if base64Valid T then .ok (decodeGroups T) else .error .invalidEncoding

end Sys2Proof.Machine
end

