-- ==== Sys2Proof/Machine/Aes.lean ====
section
/-! DEFINITION. The AES-128/192/256 block cipher (43_aes.md): the field, the tables, the round transformations, the key
expansion, the forward and the inverse cipher. -/

namespace Sys2Proof.Machine

/-! ### Field arithmetic (section 2) -/

/-- `xtime(b)` = b • 0x02 (R253). -/
def xtime (b : Byte) : Byte := if b.getLsbD 7 then (b <<< 1) ^^^ 0x1B else b <<< 1

/-- The sum over the low `n` bits of `a` of a[i] · (x^i • b). -/
def gfMulBits : Nat → Byte → Byte → Byte
  | 0, _, _ => 0
  | n + 1, a, b => (if a.getLsbD 0 then b else 0) ^^^ gfMulBits n (a >>> 1) (xtime b)

/-- `a • b`: multiplication in GF(2^8) modulo x^8 + x^4 + x^3 + x + 1 (R252), as the sum of xtime powers of `b`
that the bits of `a` select (R253). -/
def gfMul (a b : Byte) : Byte := gfMulBits 8 a b

/-! ### Tables (section 3) -/

/-- A table entry at row x, column y for the byte 0x10·x + y. -/
def tableEntry (t : List (List Byte)) (a : Byte) : Byte := (t.getD (a.toNat / 16) []).getD (a.toNat % 16) 0

/-- The rows of the S-box table (R255). -/
def sboxTable : List (List Byte) := [
    [0x63, 0x7c, 0x77, 0x7b, 0xf2, 0x6b, 0x6f, 0xc5, 0x30, 0x01, 0x67, 0x2b, 0xfe, 0xd7, 0xab, 0x76],
    [0xca, 0x82, 0xc9, 0x7d, 0xfa, 0x59, 0x47, 0xf0, 0xad, 0xd4, 0xa2, 0xaf, 0x9c, 0xa4, 0x72, 0xc0],
    [0xb7, 0xfd, 0x93, 0x26, 0x36, 0x3f, 0xf7, 0xcc, 0x34, 0xa5, 0xe5, 0xf1, 0x71, 0xd8, 0x31, 0x15],
    [0x04, 0xc7, 0x23, 0xc3, 0x18, 0x96, 0x05, 0x9a, 0x07, 0x12, 0x80, 0xe2, 0xeb, 0x27, 0xb2, 0x75],
    [0x09, 0x83, 0x2c, 0x1a, 0x1b, 0x6e, 0x5a, 0xa0, 0x52, 0x3b, 0xd6, 0xb3, 0x29, 0xe3, 0x2f, 0x84],
    [0x53, 0xd1, 0x00, 0xed, 0x20, 0xfc, 0xb1, 0x5b, 0x6a, 0xcb, 0xbe, 0x39, 0x4a, 0x4c, 0x58, 0xcf],
    [0xd0, 0xef, 0xaa, 0xfb, 0x43, 0x4d, 0x33, 0x85, 0x45, 0xf9, 0x02, 0x7f, 0x50, 0x3c, 0x9f, 0xa8],
    [0x51, 0xa3, 0x40, 0x8f, 0x92, 0x9d, 0x38, 0xf5, 0xbc, 0xb6, 0xda, 0x21, 0x10, 0xff, 0xf3, 0xd2],
    [0xcd, 0x0c, 0x13, 0xec, 0x5f, 0x97, 0x44, 0x17, 0xc4, 0xa7, 0x7e, 0x3d, 0x64, 0x5d, 0x19, 0x73],
    [0x60, 0x81, 0x4f, 0xdc, 0x22, 0x2a, 0x90, 0x88, 0x46, 0xee, 0xb8, 0x14, 0xde, 0x5e, 0x0b, 0xdb],
    [0xe0, 0x32, 0x3a, 0x0a, 0x49, 0x06, 0x24, 0x5c, 0xc2, 0xd3, 0xac, 0x62, 0x91, 0x95, 0xe4, 0x79],
    [0xe7, 0xc8, 0x37, 0x6d, 0x8d, 0xd5, 0x4e, 0xa9, 0x6c, 0x56, 0xf4, 0xea, 0x65, 0x7a, 0xae, 0x08],
    [0xba, 0x78, 0x25, 0x2e, 0x1c, 0xa6, 0xb4, 0xc6, 0xe8, 0xdd, 0x74, 0x1f, 0x4b, 0xbd, 0x8b, 0x8a],
    [0x70, 0x3e, 0xb5, 0x66, 0x48, 0x03, 0xf6, 0x0e, 0x61, 0x35, 0x57, 0xb9, 0x86, 0xc1, 0x1d, 0x9e],
    [0xe1, 0xf8, 0x98, 0x11, 0x69, 0xd9, 0x8e, 0x94, 0x9b, 0x1e, 0x87, 0xe9, 0xce, 0x55, 0x28, 0xdf],
    [0x8c, 0xa1, 0x89, 0x0d, 0xbf, 0xe6, 0x42, 0x68, 0x41, 0x99, 0x2d, 0x0f, 0xb0, 0x54, 0xbb, 0x16]]

/-- The rows of the inverse S-box table (R256). -/
def invSboxTable : List (List Byte) := [
    [0x52, 0x09, 0x6a, 0xd5, 0x30, 0x36, 0xa5, 0x38, 0xbf, 0x40, 0xa3, 0x9e, 0x81, 0xf3, 0xd7, 0xfb],
    [0x7c, 0xe3, 0x39, 0x82, 0x9b, 0x2f, 0xff, 0x87, 0x34, 0x8e, 0x43, 0x44, 0xc4, 0xde, 0xe9, 0xcb],
    [0x54, 0x7b, 0x94, 0x32, 0xa6, 0xc2, 0x23, 0x3d, 0xee, 0x4c, 0x95, 0x0b, 0x42, 0xfa, 0xc3, 0x4e],
    [0x08, 0x2e, 0xa1, 0x66, 0x28, 0xd9, 0x24, 0xb2, 0x76, 0x5b, 0xa2, 0x49, 0x6d, 0x8b, 0xd1, 0x25],
    [0x72, 0xf8, 0xf6, 0x64, 0x86, 0x68, 0x98, 0x16, 0xd4, 0xa4, 0x5c, 0xcc, 0x5d, 0x65, 0xb6, 0x92],
    [0x6c, 0x70, 0x48, 0x50, 0xfd, 0xed, 0xb9, 0xda, 0x5e, 0x15, 0x46, 0x57, 0xa7, 0x8d, 0x9d, 0x84],
    [0x90, 0xd8, 0xab, 0x00, 0x8c, 0xbc, 0xd3, 0x0a, 0xf7, 0xe4, 0x58, 0x05, 0xb8, 0xb3, 0x45, 0x06],
    [0xd0, 0x2c, 0x1e, 0x8f, 0xca, 0x3f, 0x0f, 0x02, 0xc1, 0xaf, 0xbd, 0x03, 0x01, 0x13, 0x8a, 0x6b],
    [0x3a, 0x91, 0x11, 0x41, 0x4f, 0x67, 0xdc, 0xea, 0x97, 0xf2, 0xcf, 0xce, 0xf0, 0xb4, 0xe6, 0x73],
    [0x96, 0xac, 0x74, 0x22, 0xe7, 0xad, 0x35, 0x85, 0xe2, 0xf9, 0x37, 0xe8, 0x1c, 0x75, 0xdf, 0x6e],
    [0x47, 0xf1, 0x1a, 0x71, 0x1d, 0x29, 0xc5, 0x89, 0x6f, 0xb7, 0x62, 0x0e, 0xaa, 0x18, 0xbe, 0x1b],
    [0xfc, 0x56, 0x3e, 0x4b, 0xc6, 0xd2, 0x79, 0x20, 0x9a, 0xdb, 0xc0, 0xfe, 0x78, 0xcd, 0x5a, 0xf4],
    [0x1f, 0xdd, 0xa8, 0x33, 0x88, 0x07, 0xc7, 0x31, 0xb1, 0x12, 0x10, 0x59, 0x27, 0x80, 0xec, 0x5f],
    [0x60, 0x51, 0x7f, 0xa9, 0x19, 0xb5, 0x4a, 0x0d, 0x2d, 0xe5, 0x7a, 0x9f, 0x93, 0xc9, 0x9c, 0xef],
    [0xa0, 0xe0, 0x3b, 0x4d, 0xae, 0x2a, 0xf5, 0xb0, 0xc8, 0xeb, 0xbb, 0x3c, 0x83, 0x53, 0x99, 0x61],
    [0x17, 0x2b, 0x04, 0x7e, 0xba, 0x77, 0xd6, 0x26, 0xe1, 0x69, 0x14, 0x63, 0x55, 0x21, 0x0c, 0x7d]]

/-- S(a) (R255). -/
def sbox (a : Byte) : Byte := tableEntry sboxTable a

/-- InvS(a) (R256). -/
def invSbox (a : Byte) : Byte := tableEntry invSboxTable a

/-- a^(2^n - 2) for n = 8 steps of square and multiply, which is the inverse of `a`, with 0 for 0 (R254). -/
def gfInv (a : Byte) : Byte :=
  let a2 := gfMul a a
  let a4 := gfMul a2 a2
  let a8 := gfMul a4 a4
  let a16 := gfMul a8 a8
  let a32 := gfMul a16 a16
  let a64 := gfMul a32 a32
  let a128 := gfMul a64 a64
  gfMul a2 (gfMul a4 (gfMul a8 (gfMul a16 (gfMul a32 (gfMul a64 a128)))))

/-- The S-box by its algebraic definition, which governs the table (R254). -/
def sboxAlgebraic (a : Byte) : Byte :=
  let b := gfInv a
  b ^^^ b.rotateLeft 1 ^^^ b.rotateLeft 2 ^^^ b.rotateLeft 3 ^^^ b.rotateLeft 4 ^^^ 0x63

/-! ### The state (R251) -/

/-- Four bytes: a word (w0, w1, w2, w3) of the key schedule, or a column of the state, its row r being byte r (R251). -/
structure AesWord where
  b0 : Byte
  b1 : Byte
  b2 : Byte
  b3 : Byte
  deriving DecidableEq, Repr

/-- The 4 x 4 state as its four columns: s[r, c] is byte r of column c (R251). -/
structure AesState where
  c0 : AesWord
  c1 : AesWord
  c2 : AesWord
  c3 : AesWord
  deriving DecidableEq, Repr

/-- Four consecutive bytes as a word. -/
def aesWordAt (B : List Byte) (i : Nat) : AesWord := ⟨byteAt B i, byteAt B (i + 1), byteAt B (i + 2), byteAt B (i + 3)⟩

/-- A block enters column by column: s[r, c] = B[r + 4c] (R251). -/
def loadBlock (B : List Byte) : AesState := ⟨aesWordAt B 0, aesWordAt B 4, aesWordAt B 8, aesWordAt B 12⟩

def aesWordBytes (w : AesWord) : List Byte := [w.b0, w.b1, w.b2, w.b3]

/-- A block leaves the same way: out[r + 4c] = s[r, c] (R251). -/
def storeBlock (s : AesState) : List Byte :=
  aesWordBytes s.c0 ++ aesWordBytes s.c1 ++ aesWordBytes s.c2 ++ aesWordBytes s.c3

/-- `⊕` on words is bytewise (R264). -/
def xorWord (a b : AesWord) : AesWord := ⟨a.b0 ^^^ b.b0, a.b1 ^^^ b.b1, a.b2 ^^^ b.b2, a.b3 ^^^ b.b3⟩

/-- A byte function on each byte of a word. -/
def mapWord (f : Byte → Byte) (w : AesWord) : AesWord := ⟨f w.b0, f w.b1, f w.b2, f w.b3⟩

/-- A word function on each column of the state. -/
def mapColumns (f : AesWord → AesWord) (s : AesState) : AesState := ⟨f s.c0, f s.c1, f s.c2, f s.c3⟩

/-! ### Round transformations (section 4) -/

/-- R257. -/
def subBytes (s : AesState) : AesState := mapColumns (mapWord sbox) s

/-- R262. -/
def invSubBytes (s : AesState) : AesState := mapColumns (mapWord invSbox) s

/-- s'[r, c] = s[r, (c + r) mod 4] (R258). -/
def shiftRows (s : AesState) : AesState :=
  ⟨⟨s.c0.b0, s.c1.b1, s.c2.b2, s.c3.b3⟩,
   ⟨s.c1.b0, s.c2.b1, s.c3.b2, s.c0.b3⟩,
   ⟨s.c2.b0, s.c3.b1, s.c0.b2, s.c1.b3⟩,
   ⟨s.c3.b0, s.c0.b1, s.c1.b2, s.c2.b3⟩⟩

/-- s'[r, (c + r) mod 4] = s[r, c] (R261). -/
def invShiftRows (s : AesState) : AesState :=
  ⟨⟨s.c0.b0, s.c3.b1, s.c2.b2, s.c1.b3⟩,
   ⟨s.c1.b0, s.c0.b1, s.c3.b2, s.c2.b3⟩,
   ⟨s.c2.b0, s.c1.b1, s.c0.b2, s.c3.b3⟩,
   ⟨s.c3.b0, s.c2.b1, s.c1.b2, s.c0.b3⟩⟩

/-- One column of MixColumns (R259). -/
def mixColumn (a : AesWord) : AesWord :=
  ⟨gfMul 0x02 a.b0 ^^^ gfMul 0x03 a.b1 ^^^ a.b2 ^^^ a.b3,
   a.b0 ^^^ gfMul 0x02 a.b1 ^^^ gfMul 0x03 a.b2 ^^^ a.b3,
   a.b0 ^^^ a.b1 ^^^ gfMul 0x02 a.b2 ^^^ gfMul 0x03 a.b3,
   gfMul 0x03 a.b0 ^^^ a.b1 ^^^ a.b2 ^^^ gfMul 0x02 a.b3⟩

/-- One column of InvMixColumns (R263). -/
def invMixColumn (a : AesWord) : AesWord :=
  ⟨gfMul 0x0e a.b0 ^^^ gfMul 0x0b a.b1 ^^^ gfMul 0x0d a.b2 ^^^ gfMul 0x09 a.b3,
   gfMul 0x09 a.b0 ^^^ gfMul 0x0e a.b1 ^^^ gfMul 0x0b a.b2 ^^^ gfMul 0x0d a.b3,
   gfMul 0x0d a.b0 ^^^ gfMul 0x09 a.b1 ^^^ gfMul 0x0e a.b2 ^^^ gfMul 0x0b a.b3,
   gfMul 0x0b a.b0 ^^^ gfMul 0x0d a.b1 ^^^ gfMul 0x09 a.b2 ^^^ gfMul 0x0e a.b3⟩

/-- R259. -/
def mixColumns (s : AesState) : AesState := mapColumns mixColumn s

/-- R263. -/
def invMixColumns (s : AesState) : AesState := mapColumns invMixColumn s

/-! ### Key expansion (section 5) -/

/-- The word of zeros, read only past the end of a list, which no rule does. -/
def zeroWord : AesWord := ⟨0, 0, 0, 0⟩

/-- Word `i` of a key schedule. -/
def wordAt (w : List AesWord) (i : Nat) : AesWord := w.getD i zeroWord

/-- `RotWord` (R264). -/
def rotWord (w : AesWord) : AesWord := ⟨w.b1, w.b2, w.b3, w.b0⟩

/-- `SubWord` (R264). -/
def subWord (w : AesWord) : AesWord := mapWord sbox w

/-- RC[j] for j >= 1: RC[1] = 0x01, RC[j] = xtime(RC[j-1]) (R265). -/
def rc : Nat → Byte
  | 0 => 0
  | 1 => 0x01
  | j + 2 => xtime (rc (j + 1))

/-- Rcon[j] (R265). -/
def rcon (j : Nat) : AesWord := ⟨rc j, 0, 0, 0⟩

/-- Nk = KEY_LEN / 4 (R250). -/
def aesNk (K : List Byte) : Nat := K.length / 4

/-- Nr = Nk + 6 (R250). -/
def aesNr (K : List Byte) : Nat := aesNk K + 6

/-- The temporary `t` of R266 for word `i`, from w[i-1]. -/
def expandTemp (nk i : Nat) (t : AesWord) : AesWord :=
  if i % nk = 0 then xorWord (subWord (rotWord t)) (rcon (i / nk))
  else if nk = 8 ∧ i % nk = 4 then subWord t
  else t

/-- w[i] = w[i-Nk] ⊕ t (R266), for the words w[0..i) so far. -/
def nextKeyWord (nk : Nat) (w : List AesWord) : AesWord :=
  xorWord (wordAt w (w.length - nk)) (expandTemp nk w.length (wordAt w (w.length - 1)))

/-- The second loop of R266, `n` words long. -/
def expandWords : Nat → Nat → List AesWord → List AesWord
  | 0, _, w => w
  | n + 1, nk, w => expandWords n nk (w ++ [nextKeyWord nk w])

/-- `KeyExpansion(K)`: w[0 .. 4·(Nr+1)) (R266). -/
def keyExpansion (K : List Byte) : List AesWord :=
  expandWords (4 * (aesNr K + 1) - aesNk K) (aesNk K) ((List.range (aesNk K)).map fun i => aesWordAt K (4 * i))

/-- `AddRoundKey(rnd)` (R260): column c with word w[4·rnd + c]. -/
def addRoundKey (w : List AesWord) (rnd : Nat) (s : AesState) : AesState :=
  ⟨xorWord s.c0 (wordAt w (4 * rnd)), xorWord s.c1 (wordAt w (4 * rnd + 1)),
   xorWord s.c2 (wordAt w (4 * rnd + 2)), xorWord s.c3 (wordAt w (4 * rnd + 3))⟩

/-! ### Forward and inverse cipher (section 6) -/

/-- The body of the forward loop for round `rnd` (R267). -/
def aesRound (w : List AesWord) (s : AesState) (rnd : Nat) : AesState :=
  addRoundKey w rnd (mixColumns (shiftRows (subBytes s)))

/-- The body of the inverse loop for round `rnd` (R268). -/
def aesInvRound (w : List AesWord) (s : AesState) (rnd : Nat) : AesState :=
  invMixColumns (addRoundKey w rnd (invSubBytes (invShiftRows s)))

/-- The rounds 1 .. Nr-1, in order. -/
def middleRounds (nr : Nat) : List Nat := (List.range (nr - 1)).map (· + 1)

/-- `E_AES(K, B)` (R267). -/
def aesEncrypt (K B : List Byte) : List Byte :=
  let w := keyExpansion K
  let nr := aesNr K
  let s := (middleRounds nr).foldl (aesRound w) (addRoundKey w 0 (loadBlock B))
  storeBlock (addRoundKey w nr (shiftRows (subBytes s)))

/-- `D_AES(K, B)` (R268). -/
def aesDecrypt (K B : List Byte) : List Byte :=
  let w := keyExpansion K
  let nr := aesNr K
  let s := (middleRounds nr).reverse.foldl (aesInvRound w) (addRoundKey w nr (loadBlock B))
  storeBlock (addRoundKey w 0 (invSubBytes (invShiftRows s)))

end Sys2Proof.Machine
end

