-- ==== Sys2Proof/Machine/Sm4.lean ====
section
/-! DEFINITION. The SM4-128 block cipher (44_sm4.md): the table and transforms, the key schedule, the two ciphers. -/

namespace Sys2Proof.Machine

/-- Four words: X[i..i+4) of the rounds, or k[i..i+4) of the key schedule. -/
structure Sm4State where
  x0 : Word
  x1 : Word
  x2 : Word
  x3 : Word
  deriving DecidableEq, Repr

/-! ### Words and bytes (section 1) -/

/-- be32(B[i..i+4)) (R300). -/
def sm4WordAt (B : List Byte) (i : Nat) : Word := be32 (byteAt B i) (byteAt B (i + 1)) (byteAt B (i + 2)) (byteAt B (i + 3))

/-- The four words of a block, or MK0..MK3 of a key (R300). -/
def sm4Load (B : List Byte) : Sm4State := ⟨sm4WordAt B 0, sm4WordAt B 4, sm4WordAt B 8, sm4WordAt B 12⟩

/-- The bytes of (Y0, Y1, Y2, Y3) (R300). -/
def sm4Store (s : Sm4State) : List Byte := bytesBe32 s.x0 ++ bytesBe32 s.x1 ++ bytesBe32 s.x2 ++ bytesBe32 s.x3

/-! ### Table and transforms (section 2) -/

/-- The rows of the S-box table (R301). -/
def sm4SboxTable : List (List Byte) := [
    [0xd6, 0x90, 0xe9, 0xfe, 0xcc, 0xe1, 0x3d, 0xb7, 0x16, 0xb6, 0x14, 0xc2, 0x28, 0xfb, 0x2c, 0x05],
    [0x2b, 0x67, 0x9a, 0x76, 0x2a, 0xbe, 0x04, 0xc3, 0xaa, 0x44, 0x13, 0x26, 0x49, 0x86, 0x06, 0x99],
    [0x9c, 0x42, 0x50, 0xf4, 0x91, 0xef, 0x98, 0x7a, 0x33, 0x54, 0x0b, 0x43, 0xed, 0xcf, 0xac, 0x62],
    [0xe4, 0xb3, 0x1c, 0xa9, 0xc9, 0x08, 0xe8, 0x95, 0x80, 0xdf, 0x94, 0xfa, 0x75, 0x8f, 0x3f, 0xa6],
    [0x47, 0x07, 0xa7, 0xfc, 0xf3, 0x73, 0x17, 0xba, 0x83, 0x59, 0x3c, 0x19, 0xe6, 0x85, 0x4f, 0xa8],
    [0x68, 0x6b, 0x81, 0xb2, 0x71, 0x64, 0xda, 0x8b, 0xf8, 0xeb, 0x0f, 0x4b, 0x70, 0x56, 0x9d, 0x35],
    [0x1e, 0x24, 0x0e, 0x5e, 0x63, 0x58, 0xd1, 0xa2, 0x25, 0x22, 0x7c, 0x3b, 0x01, 0x21, 0x78, 0x87],
    [0xd4, 0x00, 0x46, 0x57, 0x9f, 0xd3, 0x27, 0x52, 0x4c, 0x36, 0x02, 0xe7, 0xa0, 0xc4, 0xc8, 0x9e],
    [0xea, 0xbf, 0x8a, 0xd2, 0x40, 0xc7, 0x38, 0xb5, 0xa3, 0xf7, 0xf2, 0xce, 0xf9, 0x61, 0x15, 0xa1],
    [0xe0, 0xae, 0x5d, 0xa4, 0x9b, 0x34, 0x1a, 0x55, 0xad, 0x93, 0x32, 0x30, 0xf5, 0x8c, 0xb1, 0xe3],
    [0x1d, 0xf6, 0xe2, 0x2e, 0x82, 0x66, 0xca, 0x60, 0xc0, 0x29, 0x23, 0xab, 0x0d, 0x53, 0x4e, 0x6f],
    [0xd5, 0xdb, 0x37, 0x45, 0xde, 0xfd, 0x8e, 0x2f, 0x03, 0xff, 0x6a, 0x72, 0x6d, 0x6c, 0x5b, 0x51],
    [0x8d, 0x1b, 0xaf, 0x92, 0xbb, 0xdd, 0xbc, 0x7f, 0x11, 0xd9, 0x5c, 0x41, 0x1f, 0x10, 0x5a, 0xd8],
    [0x0a, 0xc1, 0x31, 0x88, 0xa5, 0xcd, 0x7b, 0xbd, 0x2d, 0x74, 0xd0, 0x12, 0xb8, 0xe5, 0xb4, 0xb0],
    [0x89, 0x69, 0x97, 0x4a, 0x0c, 0x96, 0x77, 0x7e, 0x65, 0xb9, 0xf1, 0x09, 0xc5, 0x6e, 0xc6, 0x84],
    [0x18, 0xf0, 0x7d, 0xec, 0x3a, 0xdc, 0x4d, 0x20, 0x79, 0xee, 0x5f, 0x3e, 0xd7, 0xcb, 0x39, 0x48]]

/-- Sbox(a): the entry at row x, column y is Sbox(0x10·x + y) (R301). -/
def sm4Sbox (a : Byte) : Byte := (sm4SboxTable.getD (a.toNat / 16) []).getD (a.toNat % 16) 0

/-- τ(A) (R302): the S-box on each byte. -/
def sm4Tau (A : Word) : Word := be32 (sm4Sbox (lane A 3)) (sm4Sbox (lane A 2)) (sm4Sbox (lane A 1)) (sm4Sbox (lane A 0))

/-- L(B) (R303). -/
def sm4L (B : Word) : Word := B ^^^ rotl32 B 2 ^^^ rotl32 B 10 ^^^ rotl32 B 18 ^^^ rotl32 B 24

/-- T(x) = L(τ(x)) (R303). -/
def sm4T (x : Word) : Word := sm4L (sm4Tau x)

/-- L'(B) (R304). -/
def sm4L' (B : Word) : Word := B ^^^ rotl32 B 13 ^^^ rotl32 B 23

/-- T'(x) = L'(τ(x)) (R304). -/
def sm4T' (x : Word) : Word := sm4L' (sm4Tau x)

/-- FK0..FK3 (R305). -/
def sm4FK : Sm4State := ⟨0xa3b1bac6, 0x56aa3350, 0x677d9197, 0xb27022dc⟩

/-- Byte j of CK[i]: (4i + j) · 7 mod 256 (R306). -/
def sm4CKByte (i j : Nat) : Byte := BitVec.ofNat 8 ((4 * i + j) * 7 % 256)

/-- CK[i], j = 0 most significant (R306). -/
def sm4CK (i : Nat) : Word := be32 (sm4CKByte i 0) (sm4CKByte i 1) (sm4CKByte i 2) (sm4CKByte i 3)

/-! ### Key schedule (section 3) -/

/-- k[i+4] from k[i..i+4) (R307). -/
def sm4NextKey (i : Nat) (k : Sm4State) : Word := k.x0 ^^^ sm4T' (k.x1 ^^^ k.x2 ^^^ k.x3 ^^^ sm4CK i)

/-- The round keys rk[i..i+n) from k[i..i+4) (R307). -/
def sm4KeyLoop : Nat → Nat → Sm4State → List Word
  | 0, _, _ => []
  | n + 1, i, k => sm4NextKey i k :: sm4KeyLoop n (i + 1) ⟨k.x1, k.x2, k.x3, sm4NextKey i k⟩

/-- `SM4KeySchedule(K)`: rk[0..32) (R307). -/
def sm4KeySchedule (K : List Byte) : List Word :=
  let mk := sm4Load K
  sm4KeyLoop 32 0 ⟨mk.x0 ^^^ sm4FK.x0, mk.x1 ^^^ sm4FK.x1, mk.x2 ^^^ sm4FK.x2, mk.x3 ^^^ sm4FK.x3⟩

/-! ### Encryption and decryption (section 4) -/

/-- F(X0, X1, X2, X3, rk) (R308). -/
def sm4F (s : Sm4State) (rk : Word) : Word := s.x0 ^^^ sm4T (s.x1 ^^^ s.x2 ^^^ s.x3 ^^^ rk)

/-- One round: X[i..i+4) to X[i+1..i+5) (R309). -/
def sm4Round (s : Sm4State) (rk : Word) : Sm4State := ⟨s.x1, s.x2, s.x3, sm4F s rk⟩

/-- The reverse transform R: (X35, X34, X33, X32) (R309). -/
def sm4Reverse (s : Sm4State) : Sm4State := ⟨s.x3, s.x2, s.x1, s.x0⟩

/-- The 32 rounds under the given round keys and the reverse transform, on one block (R309). -/
def sm4Cipher (rk : List Word) (B : List Byte) : List Byte := sm4Store (sm4Reverse (rk.foldl sm4Round (sm4Load B)))

/-- `E_SM4(K, B)` (R309). -/
def sm4Encrypt (K B : List Byte) : List Byte := sm4Cipher (sm4KeySchedule K) B

/-- `D_SM4(K, B)`: the round keys in reverse order (R310). -/
def sm4Decrypt (K B : List Byte) : List Byte := sm4Cipher (sm4KeySchedule K).reverse B

end Sys2Proof.Machine
end

