-- ==== Sys2Proof/Machine/Cbc.lean ====
section
/-! DEFINITION. The CBC-mode controller (42_cbc.md): IV derivation and chaining. -/

namespace Sys2Proof.Machine

/-- SM4_IV, ASCII `1234567887654321` (00_scope.md R7, R220; assumption 7). -/
def sm4Iv : List Byte :=
  [0x31, 0x32, 0x33, 0x34, 0x35, 0x36, 0x37, 0x38, 0x38, 0x37, 0x36, 0x35, 0x34, 0x33, 0x32, 0x31]

/-- `DeriveIV(alg, K)` (R220). -/
def deriveIv (alg : Alg) (K : List Byte) : List Byte :=
  match alg with
  | .aes => slice K 0 16
  | .sm4 => sm4Iv

/-- `E_alg(K, B)` (00_scope.md R14). -/
def blockEncrypt (alg : Alg) (K B : List Byte) : List Byte :=
  match alg with
  | .aes => aesEncrypt K B
  | .sm4 => sm4Encrypt K B

/-- `D_alg(K, B)` (00_scope.md R14). -/
def blockDecrypt (alg : Alg) (K B : List Byte) : List Byte :=
  match alg with
  | .aes => aesDecrypt K B
  | .sm4 => sm4Decrypt K B

/-- Block `i` of a sequence: B[16i .. 16i+16). -/
def blockAt (B : List Byte) (i : Nat) : List Byte := slice B (16 * i) (16 * i + 16)

/-- The loop of R223 over the `n` blocks that are left, CV the chaining register (R222). -/
def cbcEncryptLoop (alg : Alg) (K : List Byte) : Nat → List Byte → List Byte → List Byte
  | 0, _, _ => []
  | n + 1, cv, M =>
    let c := blockEncrypt alg K (xorBytes (M.take 16) cv)
    c ++ cbcEncryptLoop alg K n c (M.drop 16)

/-- `CbcEncrypt(alg, K, IV, M)` (R223). -/
def cbcEncrypt (alg : Alg) (K IV M : List Byte) : List Byte := cbcEncryptLoop alg K (M.length / 16) IV M

/-- The loop of R224 over the `n` blocks that are left; the feedback is the received ciphertext block. -/
def cbcDecryptLoop (alg : Alg) (K : List Byte) : Nat → List Byte → List Byte → List Byte
  | 0, _, _ => []
  | n + 1, cv, C =>
    xorBytes (blockDecrypt alg K (C.take 16)) cv ++ cbcDecryptLoop alg K n (C.take 16) (C.drop 16)

/-- `CbcDecrypt(alg, K, IV, C)` (R224). -/
def cbcDecrypt (alg : Alg) (K IV C : List Byte) : List Byte := cbcDecryptLoop alg K (C.length / 16) IV C

end Sys2Proof.Machine
end

