-- ==== Sys2Proof/Machine/Flags.lean ====
section
/-! DEFINITION. The STATUS flags: the word a read gives (20_memory.md R87) and the four events that write them
(10_state.md R54). No command reads a flag. -/

namespace Sys2Proof.Machine

/-- A flag as a word. -/
def flagBit (b : Bool) : Word := (BitVec.ofBool b).setWidth 32

/-- STATUS.BUSY: 1 exactly when PHASE = BUSY (R37). -/
def State.busyFlag (s : State) : Bool := decide (s.phase = .busy)

/-- `zext_32(ERR_CODE) << 8 | WRITE_DROPPED << 3 | ERROR << 2 | DONE << 1 | BUSY` (R87); the other bits are reserved
and read 0 (R42). -/
def State.statusWord (s : State) : Word :=
  (s.errCode.setWidth 32 <<< 8) ||| (flagBit s.writeDropped <<< 3) ||| (flagBit s.error <<< 2) |||
    (flagBit s.done <<< 1) ||| flagBit s.busyFlag

/-- Acceptance clears DONE, ERROR, WRITE_DROPPED and ERR_CODE and sets BUSY (R54, 40_commands.md R150). -/
def State.acceptFlags (s : State) : State :=
  { s with done := false, error := false, errCode := 0, writeDropped := false, phase := .busy }

/-- A successful completion clears BUSY, ERROR and ERR_CODE and sets DONE; WRITE_DROPPED stays (R54, R153). -/
def State.successFlags (s : State) : State :=
  { s with error := false, errCode := 0, done := true, phase := .idle }

/-- A failed completion clears BUSY, sets ERROR and DONE, and records the code; WRITE_DROPPED stays (R54, R153). -/
def State.failureFlags (code : BitVec 4) (s : State) : State :=
  { s with error := true, errCode := code, done := true, phase := .idle }

/-- A write dropped while BUSY sets WRITE_DROPPED (R54, 20_memory.md R92). -/
def State.droppedWriteFlag (s : State) : State := { s with writeDropped := true }

/-- The codes of R400. -/
def CommandError.code : CommandError → BitVec 4
  | .invalidKeyLength => 1
  | .invalidEncoding => 2
  | .invalidCiphertextLength => 3
  | .invalidPadding => 4
  | .illegalCommand => 5
  | .lengthOverflow => 6

end Sys2Proof.Machine
end

