-- ==== Sys2Proof/Machine/Memory.lean ====
section
/-! DEFINITION. The byte memories of the core, IN_BUF and OUT_BUF (10_state.md R48, R49), in one canonical form: the listed
bytes are the specified ones, indices strictly rising. An unlisted byte reads as `none`, unspecified, so no entry can
equal what an unlisted index reads as. -/

namespace Sys2Proof.Machine

/-- The byte at an index, or `none` when it is unspecified. -/
def Memory.read : Memory → Nat → Option Byte
  | [], _ => none
  | (i, b) :: m, k => if i = k then some b else Memory.read m k

/-- Specifying the byte at an index. -/
def Memory.write : Memory → Nat → Byte → Memory
  | [], k, v => [(k, v)]
  | (i, b) :: m, k, v =>
    if k < i then (k, v) :: (i, b) :: m
    else if k = i then (k, v) :: m
    else (i, b) :: Memory.write m k v

/-- The memory that specifies exactly the bytes of a sequence, from index `start` on. -/
def Memory.ofBytes : Nat → List Byte → Memory
  | _, [] => []
  | start, b :: bs => (start, b) :: Memory.ofBytes (start + 1) bs

/-- Every index is above `k`, and the indices rise strictly. -/
def Memory.risesAbove : Nat → Memory → Bool
  | _, [] => true
  | k, (i, _) :: m => decide (k < i) && Memory.risesAbove i m

/-- The canonical form: strictly rising indices. -/
def Memory.wf : Memory → Bool
  | [] => true
  | (i, _) :: m => Memory.risesAbove i m

/-- Every listed index is below `n`. -/
def Memory.below (n : Nat) (m : Memory) : Bool := m.all fun c => decide (c.1 < n)

end Sys2Proof.Machine
end

