-- ==== Sys2Proof/Machine/Operands.lean ====
section
/-! DEFINITION. The operand forms: what a bus offset names (10_state.md R34, 20_memory.md R81), and what a command reads,
the key and the input (30_encoding.md R127). -/

namespace Sys2Proof.Machine

/-- What a word offset of the core's window names (R34). `inBuf a` and `outBuf a` are the word at byte `a` of the
window, `key n` is KEYn. -/
inductive Region where
  | cmd
  | status
  | keyLen
  | inLen
  | outLen
  | caps
  | key (n : Nat)
  | inBuf (a : Nat)
  | outBuf (a : Nat)
  | reserved
  deriving DecidableEq, Repr

/-- The word offset a transaction acts on: off - (off mod 4) (R81). -/
def wordOffset (off : Offset) : Nat := off.toNat - off.toNat % 4

/-- The register map of R34; every offset it does not name is reserved (20_memory.md R86). -/
def regionAt (o : Nat) : Region :=
  if o = 0x0000 then .cmd
  else if o = 0x0004 then .status
  else if o = 0x0008 then .keyLen
  else if o = 0x000C then .inLen
  else if o = 0x0010 then .outLen
  else if o = 0x0014 then .caps
  else if 0x0020 ≤ o ∧ o < 0x0040 then .key ((o - 0x0020) / 4)
  else if 0x1000 ≤ o ∧ o < 0x2000 then .inBuf (o - 0x1000)
  else if 0x4000 ≤ o ∧ o < 0x8000 then .outBuf (o - 0x4000)
  else .reserved

/-- What a bus transaction at `off` acts on. -/
def regionOf (off : Offset) : Region := regionAt (wordOffset off)

/-- `KeyLenOK` of 40_commands.md R154, R156. -/
def keyLenOk : Alg → Nat → Bool
  | .aes, n => n == 16 || n == 24 || n == 32
  | .sm4, n => n == 16

/-- KEY[0..KEY_LEN), the key of a command (R127). -/
def State.keyBytes (s : State) : List Byte := slice s.key.toList 0 s.keyLen.toNat

/-- IN_BUF[i] as the host or a command reads it: `any` for a byte not written since reset (10_state.md R48). -/
def State.inByte (s : State) (i : Nat) : Byte := (s.inBuf.read i).getD (Config.freeByte s.draw i)

/-- OUT_BUF[i] as the host reads it while IDLE: `any` for an unspecified byte (10_state.md R49). -/
def State.outByte (s : State) (i : Nat) : Byte := (s.outBuf.read i).getD (Config.freeByte s.draw i)

/-- IN_BUF[0..IN_LEN), the input of a command (R127). -/
def State.inputBytes (s : State) : List Byte := (List.range s.inLen.toNat).map s.inByte

end Sys2Proof.Machine
end

