-- ==== Sys2Proof/Machine/Ops.lean ====
section
/-! DEFINITION. The operations on the state that the meanings share: bus reads and writes (20_memory.md section 1),
acceptance (40_commands.md R150), completion (R153), and the raising of an error, the core's analogue of taking an
exception (60_exceptions.md R410). There is no return from an error (R411): the record stays until the next acceptance
or reset clears it. Last, the reset event (70_reset_and_hazards.md R450). -/

namespace Sys2Proof.Machine

/-! ### The other agents' fields -/

/-- The state with other masters. -/
def State.setMasters (ms : List Master) (s : State) : State := { s with masters := ms }

/-- The state with other turns to come. -/
def State.setSchedule (ts : List Turn) (s : State) : State := { s with schedule := ts }

/-! ### Reads -/

/-- CAPS: bits [15:0] IN_BUF_BYTES, bits [31:16] OUT_BUF_BYTES (10_state.md R46). -/
def capsWord (c : Config) : Word := BitVec.ofNat 16 c.outBufBytes ++ BitVec.ofNat 16 c.inBufBytes

/-- Byte `i` of the IN_BUF window on a read: 0 at or beyond IN_BUF_BYTES (R84). -/
def State.inWindowByte (s : State) (i : Nat) : Byte := if i < s.cfg.inBufBytes then s.inByte i else 0

/-- Byte `i` of the OUT_BUF window on a read: `any` while BUSY, the byte or `any` while IDLE, 0 at or beyond
OUT_BUF_BYTES (R85; assumption 2 on the last while BUSY). -/
def State.outWindowByte (s : State) (i : Nat) : Byte :=
  if s.phase = .busy then Config.freeByte s.draw i
  else if i < s.cfg.outBufBytes then s.outByte i
  else 0

/-- The word `BusRead32(off)` returns (R84 to R87). -/
def busReadWord (off : Offset) (s : State) : Word :=
  match regionOf off with
  | .cmd => 0
  | .status => s.statusWord
  | .keyLen => s.keyLen.setWidth 32
  | .inLen => s.inLen.setWidth 32
  | .outLen => s.outLen.setWidth 32
  | .caps => capsWord s.cfg
  | .key _ => 0
  | .inBuf a => le32 (s.inWindowByte a) (s.inWindowByte (a + 1)) (s.inWindowByte (a + 2)) (s.inWindowByte (a + 3))
  | .outBuf a => le32 (s.outWindowByte a) (s.outWindowByte (a + 1)) (s.outWindowByte (a + 2)) (s.outWindowByte (a + 3))
  | .reserved => 0

/-- A read has no side effect (R91); only the model's own draw counter moves, so that the next read of an unspecified
byte is a draw of its own (assumption 1). -/
def State.nextDraw (s : State) : State := { s with draw := s.draw + 1 }

/-! ### Writes -/

/-- KEY[4n + j] <- v[8j+7 : 8j] for j = 0..3 (10_state.md R47). -/
def writeKeyWord (key : Vector Byte 32) (n : Nat) (v : Word) : Vector Byte 32 :=
  Vector.ofFn fun i => if i.val / 4 = n then lane v (i.val % 4) else key[i]

/-- A byte written to the IN_BUF window; ignored at or beyond IN_BUF_BYTES (R83). -/
def writeWindowByte (capacity : Nat) (m : Memory) (i : Nat) (b : Byte) : Memory :=
  if i < capacity then m.write i b else m

/-- The four bytes of a word written to the IN_BUF window at byte `a` (R83). -/
def writeWindowWord (capacity : Nat) (m : Memory) (a : Nat) (v : Word) : Memory :=
  writeWindowByte capacity
    (writeWindowByte capacity
      (writeWindowByte capacity (writeWindowByte capacity m a (lane v 0)) (a + 1) (lane v 1))
      (a + 2) (lane v 2))
    (a + 3) (lane v 3)

/-- Acceptance of a command word (40_commands.md R150). -/
def State.accept (w : Word) (s : State) : State := { s.acceptFlags with curCmd := w, outLen := 0 }

/-- `BusWrite32(off, v)`: dropped while BUSY (R92), else the effect of R83, R85, R86, R88. -/
def busWrite (off : Offset) (v : Word) (s : State) : State :=
  if s.phase = .busy then s.droppedWriteFlag
  else
    match regionOf off with
    | .cmd => s.accept v
    | .status => s
    | .keyLen => { s with keyLen := v.setWidth 6 }
    | .inLen => { s with inLen := v.setWidth 16 }
    | .outLen => s
    | .caps => s
    | .key n => { s with key := writeKeyWord s.key n v }
    | .inBuf a => { s with inBuf := writeWindowWord s.cfg.inBufBytes s.inBuf a v }
    | .outBuf _ => s
    | .reserved => s

/-! ### Completion -/

/-- A successful completion with the result `T` (R153): OUT_BUF[0..len(T)) is T, every other byte of OUT_BUF
unspecified. -/
def State.succeed (T : List Byte) (s : State) : State :=
  { s.successFlags.nextDraw with outBuf := Memory.ofBytes 0 T, outLen := BitVec.ofNat 16 T.length }

/-- `raise CommandError(c)`: the error completion (R153, 60_exceptions.md R410). OUT_BUF is wholly unspecified. -/
def State.raise (e : CommandError) (s : State) : State :=
  { (s.failureFlags e.code).nextDraw with outBuf := [], outLen := 0 }

/-- The completion step, given what `Run` returned (R153). It is one atomic step and always reaches a next state
(R412). -/
def complete (r : Except CommandError (List Byte)) (s : State) : Host.Outcome State Fault Refusal :=
  match r with
  | .ok T => .next (s.succeed T)
  | .error e => .next (s.raise e)

/-! ### Reset -/

/-- The reset event: every piece of the core's state takes its value after reset (70_reset_and_hazards.md R450). The
parameters, the masters, the turns to come and the draw counter are no state of the core and stay (assumption 9). -/
def State.assertReset (s : State) : State :=
  { State.reset with cfg := s.cfg, masters := s.masters, schedule := s.schedule, draw := s.draw }

end Sys2Proof.Machine
end

