-- ==== Sys2Proof/Machine/Pkcs7.lean ====
section
/-! DEFINITION. The PKCS#7 padding encoder and decoder (41_pkcs7.md). -/

namespace Sys2Proof.Machine

/-- How many bytes the encoder appends to a plaintext of `len` bytes: 16 - (len mod 16), from 1 to 16 (R200). -/
def padCount (len : Nat) : Nat := 16 - len % 16

/-- `Pkcs7Pad(P)` (R200). -/
def pkcs7Pad (P : List Byte) : List Byte :=
  P ++ List.replicate (padCount P.length) (BitVec.ofNat 8 (padCount P.length))

/-- The padding marker: the last byte of the decrypted buffer (R202). -/
def padMarker (M : List Byte) : Nat := (byteAt M (M.length - 1)).toNat

/-- `Pkcs7Unpad(M)` (R202): only the last byte is checked (R203). -/
def pkcs7Unpad (M : List Byte) : Except CommandError (List Byte) :=
  let n := padMarker M
  if n < 1 ∨ n > 16 then .error .invalidPadding
  else .ok (M.take (M.length - n))

end Sys2Proof.Machine
end

