-- ==== Sys2Proof/Machine/Encrypt.lean ====
section
/-! DEFINITION. The encryption commands ENC.AES and ENC.SM4 (40_commands.md section 2). -/

namespace Sys2Proof.Machine

/-- `clen`, the padded length (R157, 41_pkcs7.md R201). -/
def paddedLen (n : Nat) : Nat := 16 * (n / 16 + 1)

/-- The base64 length (R157, 45_base64.md R341). -/
def framedLen (n : Nat) : Nat := 4 * ((n + 2) / 3)

/-- The input capacity check that `Run` makes for every legal command, before anything else (R154, R155). -/
def withinInputCapacity (s : State) (r : Except CommandError (List Byte)) : Except CommandError (List Byte) :=
  if s.inLen.toNat > s.cfg.inBufBytes then .error .lengthOverflow else r

/-- The raw ciphertext C of R158: pad, derive the IV, chain. -/
def rawCiphertext (alg : Alg) (K P : List Byte) : List Byte := cbcEncrypt alg K (deriveIv alg K) (pkcs7Pad P)

/-- `Encrypt(alg)` (R158). -/
def encrypt (alg : Alg) (s : State) : Except CommandError (List Byte) :=
  if framedLen (paddedLen s.inLen.toNat) > s.cfg.outBufBytes then .error .lengthOverflow
  else if keyLenOk alg s.keyLen.toNat = false then .error .invalidKeyLength
  else .ok (base64Encode (rawCiphertext alg s.keyBytes s.inputBytes))

/-- `Run` of a legal encryption word (R154). -/
def runEncrypt (alg : Alg) (s : State) : Except CommandError (List Byte) := withinInputCapacity s (encrypt alg s)

/-- ENC.AES (R160). -/
def execEncAes (s : State) : Host.Outcome State Fault Refusal := complete (runEncrypt .aes s) s

/-- ENC.SM4 (R161). -/
def execEncSm4 (s : State) : Host.Outcome State Fault Refusal := complete (runEncrypt .sm4 s) s

end Sys2Proof.Machine
end

