-- ==== Sys2Proof/Machine/Decrypt.lean ====
section
/-! DEFINITION. The decryption commands DEC.AES and DEC.SM4 (40_commands.md section 3). -/

namespace Sys2Proof.Machine

/-- The decrypted buffer M of R165, still padded. -/
def decryptedBuffer (alg : Alg) (K C : List Byte) : List Byte := cbcDecrypt alg K (deriveIv alg K) C

/-- `Decrypt(alg)` (R165), in the order of the source's steps (60_exceptions.md R408). -/
def decrypt (alg : Alg) (s : State) : Except CommandError (List Byte) :=
  match base64Decode s.inputBytes with
  | .error e => .error e
  | .ok C =>
    if C.length = 0 ∨ C.length % 16 ≠ 0 then .error .invalidCiphertextLength
    else if keyLenOk alg s.keyLen.toNat = false then .error .invalidKeyLength
    else pkcs7Unpad (decryptedBuffer alg s.keyBytes C)

/-- `Run` of a legal decryption word (R154). -/
def runDecrypt (alg : Alg) (s : State) : Except CommandError (List Byte) := withinInputCapacity s (decrypt alg s)

/-- DEC.AES (R170). -/
def execDecAes (s : State) : Host.Outcome State Fault Refusal := complete (runDecrypt .aes s) s

/-- DEC.SM4 (R171). -/
def execDecSm4 (s : State) : Host.Outcome State Fault Refusal := complete (runDecrypt .sm4 s) s

end Sys2Proof.Machine
end

