-- ==== Sys2Proof/Machine/Illegal.lean ====
section
/-! DEFINITION. The illegal command words (40_commands.md section 4). -/

namespace Sys2Proof.Machine

/-- ILLEGAL (R180): `Run` raises ILLEGAL_COMMAND first; no operand is read and no other check made, whatever the
word. -/
def execIllegal (_w : Word) (s : State) : Host.Outcome State Fault Refusal := complete (.error .illegalCommand) s

end Sys2Proof.Machine
end

