-- ==== Sys2Proof/Machine/Dispatch.lean ====
section
/-! DEFINITION. What each command does at its completion (40_commands.md R152 to R154), one arm a row of the opcode
table. `exec` does not look at PHASE: `step` calls it exactly when the completion is enabled (assumption 13). -/

namespace Sys2Proof.Machine

def exec (i : Instr) (s : State) : Host.Outcome State Fault Refusal :=
  match i with
  | .encAes => Sys2Proof.Machine.execEncAes s
  | .encSm4 => Sys2Proof.Machine.execEncSm4 s
  | .decAes => Sys2Proof.Machine.execDecAes s
  | .decSm4 => Sys2Proof.Machine.execDecSm4 s
  | .illegal w => Sys2Proof.Machine.execIllegal w s

end Sys2Proof.Machine
end

