-- ==== Sys2Proof/WellFormed.lean ====
section
/-! DEFINITION. When a term of Instr stands for a word of the table: an `illegal` term must hold a word that is
not one of the four legal ones (30_encoding.md R125, R126). -/

namespace Sys2Proof

/-- The four legal command words, in the order of R125. -/
def legalWords : List Word := [0x00000001, 0x00000011, 0x00000002, 0x00000012]

/-- R126: `illegal` is for every word but the four legal ones. -/
def Instr.wellFormed : Instr → Bool
  | .encAes => true
  | .encSm4 => true
  | .decAes => true
  | .decSm4 => true
  | .illegal w => !legalWords.contains w

end Sys2Proof
end

