-- ==== Sys2Proof/Decode.lean ====
section
/-! DEFINITION. The decoder (30_encoding.md R120 to R126), total on every word because the table is, its form on bytes,
which rejects by name, and the encoder, written from the fields of R121. -/

namespace Sys2Proof

/-- OP, bits [3:0] (R121). -/
def opField (w : Word) : BitVec 4 := w.extractLsb' 0 4

/-- ALG, bits [7:4] (R121). -/
def algField (w : Word) : BitVec 4 := w.extractLsb' 4 4

/-- RSVD, bits [31:8] (R121). -/
def rsvdField (w : Word) : BitVec 24 := w.extractLsb' 8 24

/-- The command a word stands for (R121 to R126): RSVD must be 0, OP 1 or 2, ALG 0 or 1; any other word is
illegal. -/
def decode (w : Word) : Instr :=
  if rsvdField w ≠ 0 then .illegal w
  else if opField w = 1 ∧ algField w = 0 then .encAes
  else if opField w = 1 ∧ algField w = 1 then .encSm4
  else if opField w = 2 ∧ algField w = 0 then .decAes
  else if opField w = 2 ∧ algField w = 1 then .decSm4
  else .illegal w

/-- Why bytes are no command word: the one format has exactly four bytes (R120). -/
inductive DecodeRefusal where
  /-- Fewer than the four bytes of a command word were given. -/
  | truncated (given : Nat)
  deriving DecidableEq, Repr

/-- Decoding a byte sequence: the command word's bytes, first the least significant (20_memory.md R82), and the
bytes after it. -/
def decodeBytes : List Byte → Except DecodeRefusal (Instr × List Byte)
  | b0 :: b1 :: b2 :: b3 :: rest => .ok (decode (Machine.le32 b0 b1 b2 b3), rest)
  | bs => .error (.truncated bs.length)

/-- Assembling the fields of R121. -/
def commandWord (op alg : BitVec 4) : Word := (0 : BitVec 24) ++ alg ++ op

/-- The word of a command (R125). -/
def encode : Instr → Word
  | .encAes => commandWord 1 0
  | .encSm4 => commandWord 1 1
  | .decAes => commandWord 2 0
  | .decSm4 => commandWord 2 1
  | .illegal w => w

/-- The bytes of a command's word, the least significant first. -/
def encodeBytes (i : Instr) : List Byte :=
  [Machine.lane (encode i) 0, Machine.lane (encode i) 1, Machine.lane (encode i) 2, Machine.lane (encode i) 3]

/-- The word whose low `nbits` bits are `w` and whose other bits are 0 (assumption 11). -/
def tableWord (nbits w : Nat) : Word := BitVec.ofNat 32 (w % 2 ^ nbits)

/-- The command the decoder reads from a table row's bits. A row longer than 32 bits is no command (R120). -/
def decodeTableWord (nbits w : Nat) : Option Instr :=
  if nbits ≤ 32 then
    let word := tableWord nbits w
    match decodeBytes [Machine.lane word 0, Machine.lane word 1, Machine.lane word 2, Machine.lane word 3] with
    | .ok (i, _) => some i
    | .error _ => none
  else none

end Sys2Proof
end

