-- ==== Sys2Proof/Machine/HostProgram.lean ====
section
/-! DEFINITION. The host: bus masters running host programs (30_encoding.md section 2), the expansions of the
pseudo-statements, and whose turn comes next (20_memory.md R96). -/

namespace Sys2Proof.Machine

/-! ### Register names (R128) -/

def offCmd : Offset := 0x0000
def offStatus : Offset := 0x0004
def offKeyLen : Offset := 0x0008
def offInLen : Offset := 0x000C
def offOutLen : Offset := 0x0010
def offCaps : Offset := 0x0014
/-- KEYn -/
def offKey (n : Nat) : Offset := BitVec.ofNat 16 (0x0020 + 4 * n)
/-- IN_BUF+n -/
def offInBuf (n : Nat) : Offset := BitVec.ofNat 16 (0x1000 + n)
/-- OUT_BUF+n -/
def offOutBuf (n : Nat) : Offset := BitVec.ofNat 16 (0x4000 + n)

/-- The address a transaction at an offset has on the platform's bus: the window starts at BASE (20_memory.md R93). -/
def busAddress (c : Config) (off : Offset) : Nat := c.base + off.toNat

/-- The offset of a bus address inside the 64 KiB window, `none` outside it (R93). -/
def offsetOfAddress (c : Config) (addr : Nat) : Option Offset :=
  if c.base ≤ addr ∧ addr < c.base + 0x10000 then some (BitVec.ofNat 16 (addr - c.base)) else none

/-! ### Statements (R129) -/

/-- The index of the first line with a label. -/
def labelIndex (prog : List Line) (label : Nat) : Option Nat := prog.findIdx? fun l => l.label == some label

/-- The master after one of its reads returned `r`. -/
def Master.note (m : Master) (r : Word) : Master := { m with reads := r :: m.reads }

/-- Going on to the next line. -/
def Master.advance (m : Master) : Master := { m with pc := m.pc + 1 }

/-- The offsets READOUT reads after it read OUT_LEN = n: OUT_BUF+4m for m = 0 .. ceil(n/4) - 1 (R130). -/
def readOutOffsets (n : Nat) : List Offset := (List.range ((n + 3) / 4)).map fun m => offOutBuf (4 * m)

/-- One statement: at most one bus transaction (R129, R130). -/
def runStmt (st : Stmt) (m : Master) (s : State) : Master × State :=
  match st with
  | .w32 off v => (m.advance, busWrite off v s)
  | .r32 off => ((m.note (busReadWord off s)).advance, s.nextDraw)
  | .r32Check off v =>
    let r := busReadWord off s
    (if r = v then (m.note r).advance else { m.note r with status := .checkFailed }, s.nextDraw)
  | .poll off mask v =>
    let r := busReadWord off s
    (if r &&& mask = v then (m.note r).advance else m.note r, s.nextDraw)
  | .jmp label =>
    (match labelIndex m.prog label with
      | some i => { m with pc := i }
      | none => { m with status := .noSuchLabel }, s)
  | .halt => ({ m with status := .ended }, s)
  | .readOut =>
    let r := busReadWord offOutLen s
    ({ (m.note r).advance with pendingReads := readOutOffsets r.toNat }, s.nextDraw)

/-- What a running master does in one turn: the next read of a READOUT, else the line at `pc`; past the last line the
program ends (R129). A master that is not running does nothing (assumption 12). -/
def masterStep (m : Master) (s : State) : Master × State :=
  match m.status with
  | .running =>
    match m.pendingReads with
    | off :: rest => ({ m.note (busReadWord off s) with pendingReads := rest }, s.nextDraw)
    | [] =>
      match m.prog[m.pc]? with
      | some l => runStmt l.stmt m s
      | none => ({ m with status := .ended }, s)
  | .ended => (m, s)
  | .checkFailed => (m, s)
  | .noSuchLabel => (m, s)

/-- The turn of master `k`; nothing happens when there is none (assumption 12). -/
def masterTurn (k : Nat) (s : State) : State :=
  match s.masters[k]? with
  | some m =>
    let r := masterStep m s
    r.2.setMasters (r.2.masters.set k r.1)
  | none => s

/-! ### Pseudo-statements (R130) -/

/-- Statements as lines without a label. -/
def plainLines (l : List Stmt) : List Line := l.map fun st => ⟨none, st⟩

/-- le32(k[4n..4n+4)), missing bytes 0 (R130). -/
def wordOfBytes (B : List Byte) (n : Nat) : Word :=
  le32 (byteAt B (4 * n)) (byteAt B (4 * n + 1)) (byteAt B (4 * n + 2)) (byteAt B (4 * n + 3))

/-- `SETKEY "k"` (R130): "write only the words that exist", KEY0 to KEY7 (assumption 8). -/
def setKey (k : List Byte) : List Stmt :=
  ((List.range (min ((k.length + 3) / 4) 8)).map fun n => Stmt.w32 (offKey n) (wordOfBytes k n)) ++
    [.w32 offKeyLen (BitVec.ofNat 32 k.length)]

/-- `LOADIN "s"` (R130): the words of the IN_BUF window, 1024 of them (assumption 8). -/
def loadIn (b : List Byte) : List Stmt :=
  ((List.range (min ((b.length + 3) / 4) 1024)).map fun n => Stmt.w32 (offInBuf (4 * n)) (wordOfBytes b n)) ++
    [.w32 offInLen (BitVec.ofNat 32 b.length)]

/-- `RUN mnemonic`, or a literal word (R130). -/
def runCommand (i : Instr) : List Stmt := [.w32 offCmd (encode i), .poll offStatus 0x1 0x0]

/-- The result bytes: the words READOUT read, oldest first, unpacked by lanes, the first OUT_LEN of them (R131). -/
def unpackResult (outLen : Nat) (words : List Word) : List Byte :=
  (words.flatMap fun w => [lane w 0, lane w 1, lane w 2, lane w 3]).take outLen

/-- A program is well formed when every JMP names a label of a line and no label stands twice. -/
def programWellFormed (prog : List Line) : Bool :=
  (prog.all fun l => match l.stmt with
    | .jmp label => (labelIndex prog label).isSome
    | _ => true) && decide (prog.filterMap Line.label).Nodup

/-- A master about to run a program. -/
def Master.start (prog : List Line) : Master :=
  { prog := prog, pc := 0, pendingReads := [], status := .running, reads := [] }

/-! ### Turns (20_memory.md R96, R101) -/

/-- The first master that still runs; the number of masters when none does. -/
def firstRunning (ms : List Master) : Nat := ms.findIdx fun m => m.status == .running

/-- Whose turn it is, and the state with that turn taken off the schedule. When no turn is listed the core goes first
if the completion is enabled, so every accepted command completes (weak fairness, R96), else the first running master
(assumption 4). -/
def nextTurn (s : State) : Turn × State :=
  match s.schedule with
  | t :: ts => (t, s.setSchedule ts)
  | [] => (if s.phase = .busy then .core else .master (firstRunning s.masters), s)

end Sys2Proof.Machine
end

