-- ==== Sys2Proof/Machine/Step.lean ====
section
/-! DEFINITION. One step of the machine: the next turn of the core, of a bus master or of the platform. -/

namespace Sys2Proof.Machine

/-- The core sequencer's turn: the completion, enabled exactly when PHASE = BUSY (40_commands.md R153), of the
command in CUR_CMD (R152). -/
def coreTurn (s : State) : Host.Outcome State Fault Refusal :=
  match s.phase with
  | .busy => exec (decode s.curCmd) s
  | .idle => .next s

/-- One step (10_state.md R30, 20_memory.md R96, 70_reset_and_hazards.md R450). -/
def step (s : State) : Host.Outcome State Fault Refusal :=
  match (nextTurn s).1 with
  | .core => coreTurn (nextTurn s).2
  | .master k => .next (masterTurn k (nextTurn s).2)
  | .reset => .next (nextTurn s).2.assertReset

/-- The state in which the very next step runs the command whose bits are `w`: the word in CUR_CMD, where the
completion fetches it, PHASE = BUSY, which enables the completion, and the core's turn next (assumption 10). -/
def State.withFetchWord (s : State) (nbits w : Nat) : State :=
  { s with phase := .busy, curCmd := tableWord nbits w, schedule := .core :: s.schedule }

end Sys2Proof.Machine
end

