-- ==== Sys2Proof/Safety.lean ====
section
/-! DEFINITION. What a good state is, in the terms the claims use: the memories are canonical and inside their capacities, the
status flags and OUT_LEN agree with the phase and with each other, and OUT_BUF lists exactly the bytes OUT_LEN
counts. Also what it means that a command's input holds no unspecified byte. -/

namespace Sys2Proof.Machine

/-- The buffers are canonical and list no byte at or beyond their capacities (10_state.md R48, R49). -/
abbrev State.memoriesOk (s : State) : Prop :=
  s.inBuf.wf = true ∧ s.inBuf.below s.cfg.inBufBytes = true ∧
  s.outBuf.wf = true ∧ s.outBuf.below s.cfg.outBufBytes = true

/-- The flags (R37 to R41, R54): while BUSY they are as acceptance left them, but WRITE_DROPPED; ERROR is set exactly
when a code is recorded, and only after a completion; no code above 6 is ever written; a dropped write is recorded
only during or after a command. -/
abbrev State.flagsOk (s : State) : Prop :=
  (s.phase = .busy → s.done = false ∧ s.error = false ∧ s.errCode = 0 ∧ s.outLen = 0) ∧
  (s.error = true ↔ s.errCode ≠ 0) ∧
  (s.error = true → s.done = true ∧ s.outLen = 0) ∧
  s.errCode.toNat ≤ 6 ∧
  (s.writeDropped = true → s.phase = .busy ∨ s.done = true) ∧
  (s.done = false → s.outLen = 0)

/-- While IDLE exactly the bytes OUT_BUF[0..OUT_LEN) are specified (R45, R49). -/
abbrev State.outputOk (s : State) : Prop :=
  s.phase = .idle → s.outBuf.map Prod.fst = List.range s.outLen.toNat

/-- The invariant every step keeps, for legal parameters (00_scope.md R7). -/
abbrev State.Inv (s : State) : Prop := s.cfg.legal ∧ s.memoriesOk ∧ s.flagsOk ∧ s.outputOk

/-- Every byte of IN_BUF that IN_LEN counts was written since reset, so the command's input holds no `any`
(70_reset_and_hazards.md R455). IN_LEN may count bytes IN_BUF does not have; those hold nothing (10_state.md R48). -/
abbrev State.inputSpecified (s : State) : Prop :=
  ∀ i < min s.inLen.toNat s.cfg.inBufBytes, (s.inBuf.read i).isSome = true

/-- The input of a command is the byte sequence `P`: IN_LEN counts its bytes, and IN_BUF holds every one of them that
it has room for. A `P` longer than IN_BUF is only announced, as by a LOADIN of it (30_encoding.md R130). -/
abbrev State.holdsInput (s : State) (P : List Byte) : Prop :=
  s.inLen.toNat = P.length ∧ ∀ i < min P.length s.cfg.inBufBytes, s.inBuf.read i = some (byteAt P i)

/-! ### What a completion leaves (40_commands.md R153) -/

/-- `t` is `s` after a successful completion with the result `T`: OUT_BUF[0..len(T)) is T and every other byte of
OUT_BUF unspecified, OUT_LEN is len(T), ERROR 0, ERR_CODE 0, DONE 1, PHASE IDLE; nothing else changes but the model's
draw counter. -/
abbrev succeedsWith (s t : State) (T : List Byte) : Prop :=
  t = { s with phase := .idle, done := true, error := false, errCode := 0, outLen := t.outLen, outBuf := t.outBuf,
               draw := s.draw + 1 } ∧
  t.outLen.toNat = T.length ∧ ∀ a, t.outBuf.read a = T[a]?

/-- `t` is `s` after a failed completion with the code `c`: OUT_LEN 0, every byte of OUT_BUF unspecified, ERROR 1,
ERR_CODE c, DONE 1, PHASE IDLE; nothing else changes but the model's draw counter. -/
abbrev failsWith (s t : State) (c : BitVec 4) : Prop :=
  t = { s with phase := .idle, done := true, error := true, errCode := c, outLen := 0, outBuf := t.outBuf,
               draw := s.draw + 1 } ∧
  ∀ a, t.outBuf.read a = none

/-- The encryption command of a cipher. -/
def encCommand : Alg → Instr
  | .aes => .encAes
  | .sm4 => .encSm4

/-- The decryption command of a cipher. -/
def decCommand : Alg → Instr
  | .aes => .decAes
  | .sm4 => .decSm4

end Sys2Proof.Machine
end

