-- ==== Sys2Proof/Certificates/Slice0/Obligations.lean ====
section
/-! DEFINITION. The statements for the provers. Each docstring names the rule of spec/ it formalises. A byte read as
`any` is `Config.freeByte` of the draw and the position, of which nothing is known; `draw`, `schedule` and `masters`
are fields of the model's own (assumptions 1, 4, 8). -/

open Sys2Proof Sys2Proof.Machine

/-! ### Encoding -/

/-- Words written out from the field table of R121 and the rows of R125 decode to their commands; words with a
reserved OP, a reserved ALG or an RSVD bit set decode to ILLEGAL (R126, R180). -/
def Obligations.TableWordsDecodeToTheirCommands : Prop :=
  decode 0x00000001 = .encAes ∧ decode 0x00000011 = .encSm4 ∧ decode 0x00000002 = .decAes ∧
  decode 0x00000012 = .decSm4 ∧ decode 0x00000000 = .illegal 0x00000000 ∧ decode 0x00000003 = .illegal 0x00000003 ∧
  decode 0x00000021 = .illegal 0x00000021 ∧ decode 0x00000101 = .illegal 0x00000101 ∧
  decode 0xFFFFFFFF = .illegal 0xFFFFFFFF

/-- Decoding the word, or the bytes, of any well-formed command gives the command back (R125, R126). -/
def Obligations.DecodeOfEncodeIsTheCommand : Prop :=
  ∀ (i : Instr) (rest : List Byte), i.wellFormed = true →
    decode (encode i) = i ∧ decodeBytes (encodeBytes i ++ rest) = .ok (i, rest)

/-- Every word is the encoding of the command it decodes to, and that command is well formed: no bit of a word is
dropped (R125, R126). -/
def Obligations.EncodeOfDecodeIsTheWord : Prop :=
  ∀ w : Word, encode (decode w) = w ∧ (decode w).wellFormed = true

/-- R125: the legal command words are exactly four, each with its command; all 32 bits are significant. -/
def Obligations.LegalWordsAreExactlyFour : Prop :=
  ∀ w : Word,
    (decode w = .encAes ↔ w = 0x00000001) ∧ (decode w = .encSm4 ↔ w = 0x00000011) ∧
    (decode w = .decAes ↔ w = 0x00000002) ∧ (decode w = .decSm4 ↔ w = 0x00000012) ∧
    (decode w = .illegal w ↔ w ≠ 0x00000001 ∧ w ≠ 0x00000011 ∧ w ≠ 0x00000002 ∧ w ≠ 0x00000012)

/-- R124: a word with any bit of [31:8] set is illegal whatever its other bits; and (R122, R123) so is a word whose
bits [3:0] are 0 or 3 to 15, or whose bits [7:4] are 2 to 15. -/
def Obligations.ReservedFieldValuesAreIllegal : Prop :=
  ∀ w : Word,
    (w.toNat / 256 ≠ 0 → decode w = .illegal w) ∧
    ((w.toNat % 16 = 0 ∨ 3 ≤ w.toNat % 16) → decode w = .illegal w) ∧
    (2 ≤ w.toNat / 16 % 16 → decode w = .illegal w)

/-! ### Steps -/

/-- R152, R153: when the core's turn comes while BUSY (it is listed next, or no turn is listed: the model's order of
turns, assumption 4), the step is the meaning of the command CUR_CMD decodes to, at that state with the turn taken off.
The last clause is the model's choice (assumption 12): a listed core's turn while IDLE, which the spec does not have, only
leaves the schedule. -/
def Obligations.StepRunsTheDecodedCommand : Prop :=
  ∀ (s : State) (i : Instr) (ts : List Turn), decode s.curCmd = i →
    (s.phase = .busy → s.schedule = .core :: ts → step s = exec i { s with schedule := ts }) ∧
    (s.phase = .busy → s.schedule = [] → step s = exec i s) ∧
    (s.phase = .idle → s.schedule = .core :: ts → step s = .next { s with schedule := ts })

/-- R412: no operand value makes the core hang or fault: every command, in every state, completes with DONE set and
PHASE IDLE, and every step of the machine reaches a next state. -/
def Obligations.EveryStepReachesANextState : Prop :=
  (∀ (i : Instr) (s : State), ∃ t, exec i s = .next t ∧ t.phase = .idle ∧ t.done = true) ∧
  ∀ s : State, ∃ t, step s = .next t

/-- R50: PHASE goes from IDLE to BUSY only by an acceptance, that is in a master's turn that writes CMD, and from BUSY
to IDLE only by the completion of the command in CUR_CMD or by reset. -/
def Obligations.PhaseChangesOnlyByAcceptanceCompletionReset : Prop :=
  ∀ s t : State, step s = .next t →
    (s.phase = .idle → t.phase = .busy →
      ∃ (off : Offset) (w : Word) (ms : List Master) (ts : List Turn), off.toNat < 4 ∧
        t = { busWrite off w { s with schedule := ts } with masters := ms }) ∧
    (s.phase = .busy → t.phase = .idle →
      (∃ ts, exec (decode s.curCmd) { s with schedule := ts } = .next t) ∨
      ∃ ts, t = State.assertReset { s with schedule := ts })

/-- R38, R54: DONE rises only at a completion. -/
def Obligations.DoneRisesOnlyAtACompletion : Prop :=
  ∀ s t : State, step s = .next t → s.done = false → t.done = true →
    s.phase = .busy ∧ ∃ ts, exec (decode s.curCmd) { s with schedule := ts } = .next t

/-- R151: the operands of the accepted command cannot change while BUSY. -/
def Obligations.OperandsAreFrozenWhileBusy : Prop :=
  ∀ s t : State, step s = .next t → s.phase = .busy → t.phase = .busy →
    t.curCmd = s.curCmd ∧ t.key = s.key ∧ t.keyLen = s.keyLen ∧ t.inLen = s.inLen ∧ t.inBuf = s.inBuf ∧
    t.cfg = s.cfg

/-- R96, R412: whatever turns are listed, an accepted command is over, by its completion or by a reset, after at most
one step more than the listed turns (that the core goes first when no turn is listed is the model's choice,
assumption 4). -/
def Obligations.AcceptedCommandIsOverInBoundedSteps : Prop :=
  ∀ s : State, s.phase = .busy →
    ∃ n t, n ≤ s.schedule.length + 1 ∧ Sys2Proof.core.run n s = .next t ∧ t.phase = .idle

/-- R96, R151, R459: however many masters' turns come between the acceptance and the completion, and whatever they
do on the bus, the command gives the result it gives when it completes at once, provided its input holds no
unspecified byte (each draw of `any` may differ); an IN_LEN past the end of IN_BUF is covered, too. -/
def Obligations.LatencyDoesNotChangeTheResult : Prop :=
  ∀ (s : State) (ks : List Nat) (ts : List Turn), s.phase = .busy → s.inputSpecified →
    s.schedule = ks.map Turn.master ++ .core :: ts →
    ∃ t u, Sys2Proof.core.run (ks.length + 1) s = .next t ∧ exec (decode s.curCmd) s = .next u ∧
      t.phase = .idle ∧ t.done = true ∧ t.outLen = u.outLen ∧ t.outBuf = u.outBuf ∧ t.error = u.error ∧
      t.errCode = u.errCode

/-- R459, 95_test_vectors.md P5: a write of IN_LEN right after the CMD write lands or is dropped; both outcomes are
runs of the model, by where the core's turn stands. -/
def Obligations.WriteAfterCommandMayLandOrBeDropped : Prop :=
  ∀ (s : State) (m : Master) (w v : Word) (l0 l1 : Line), s.phase = .idle → s.masters = [m] → m.status = .running →
    m.pendingReads = [] → m.prog[m.pc]? = some l0 → m.prog[m.pc + 1]? = some l1 → l0.stmt = .w32 0x0000 w →
    l1.stmt = .w32 0x000C v →
    (∃ t, Sys2Proof.core.run 3 { s with schedule := [.master 0, .core, .master 0] } = .next t ∧
      t.inLen.toNat = v.toNat % 65536 ∧ t.writeDropped = false ∧ t.done = true ∧ t.phase = .idle) ∧
    ∃ t, Sys2Proof.core.run 3 { s with schedule := [.master 0, .master 0, .core] } = .next t ∧
      t.inLen = s.inLen ∧ t.writeDropped = true ∧ t.done = true ∧ t.phase = .idle

/-- R129, R130, R131: what a turn of a running host program does. W32 writes the bus; R32 notes the word read; a check
stops the program exactly when the word differs; POLL goes on exactly when the masked word agrees; JMP goes to the
label's line; HALT ends the program, and so does the end of its lines; READOUT reads OUT_LEN and then has the words
OUT_BUF+4m, m = 0 .. ceil(n/4) - 1, still to read, one a turn, before the next line. SETKEY, LOADIN and RUN stand for the
writes and the POLL of R130; the words READOUT reads unpack to OUT_BUF[0..OUT_LEN), whatever the unspecified bytes past it
read as. The model's choices: reads move the draw counter (assumption 1); a jump to a label no line has stops the
program, and of two lines with one label the first is meant (assumption 8); a program that does not run does nothing
(assumption 12); SETKEY and LOADIN write the words that exist, eight and 1024 (R130, assumption 8). -/
def Obligations.HostStatementsDoTheirTransactions : Prop :=
  (∀ (m : Master) (s : State) (l : Line) (off : Offset) (v mask : Word) (lab : Nat), m.status = .running →
    m.pendingReads = [] → m.prog[m.pc]? = some l →
    (l.stmt = .w32 off v → masterStep m s = ({ m with pc := m.pc + 1 }, busWrite off v s)) ∧
    (l.stmt = .r32 off →
      masterStep m s = ({ m with pc := m.pc + 1, reads := busReadWord off s :: m.reads },
        { s with draw := s.draw + 1 })) ∧
    (l.stmt = .r32Check off v →
      ((masterStep m s).1.status = .running ↔ busReadWord off s = v) ∧
      ((masterStep m s).1.status = .checkFailed ↔ busReadWord off s ≠ v) ∧
      (busReadWord off s = v → (masterStep m s).1.pc = m.pc + 1) ∧
      (masterStep m s).2 = { s with draw := s.draw + 1 }) ∧
    (l.stmt = .poll off mask v →
      (masterStep m s).1.pc = (if busReadWord off s &&& mask = v then m.pc + 1 else m.pc) ∧
      (masterStep m s).1.status = .running ∧ (masterStep m s).2 = { s with draw := s.draw + 1 }) ∧
    (l.stmt = .jmp lab →
      (∀ i, (m.prog[i]?).bind Line.label = some lab → (∀ j < i, (m.prog[j]?).bind Line.label ≠ some lab) →
        masterStep m s = ({ m with pc := i }, s)) ∧
      ((∀ i : Nat, (m.prog[i]?).bind Line.label ≠ some lab) →
        masterStep m s = ({ m with status := .noSuchLabel }, s))) ∧
    (l.stmt = .halt → masterStep m s = ({ m with status := .ended }, s)) ∧
    (l.stmt = .readOut →
      masterStep m s =
        ({ m with
            pc := m.pc + 1, reads := busReadWord 0x0010 s :: m.reads,
            pendingReads := (List.range ((s.outLen.toNat + 3) / 4)).map fun k => BitVec.ofNat 16 (0x4000 + 4 * k) },
          { s with draw := s.draw + 1 }))) ∧
  (∀ (m : Master) (s : State), m.status = .running → m.pendingReads = [] → m.prog[m.pc]? = none →
    masterStep m s = ({ m with status := .ended }, s)) ∧
  (∀ (m : Master) (s : State) (off : Offset) (rest : List Offset), m.status = .running →
    m.pendingReads = off :: rest →
    masterStep m s = ({ m with pendingReads := rest, reads := busReadWord off s :: m.reads },
      { s with draw := s.draw + 1 })) ∧
  (∀ (m : Master) (s : State), m.status ≠ .running → masterStep m s = (m, s)) ∧
  (∀ k : List Byte, ∃ ws, setKey k = ws ++ [.w32 0x0008 (BitVec.ofNat 32 k.length)] ∧
    ws.length = min ((k.length + 3) / 4) 8 ∧
    ∀ n < ws.length, ∃ v : Word, ws[n]? = some (.w32 (BitVec.ofNat 16 (0x0020 + 4 * n)) v) ∧
      ∀ j < 4, BitVec.ofNat 8 (v.toNat / 256 ^ j) = if 4 * n + j < k.length then byteAt k (4 * n + j) else 0) ∧
  (∀ b : List Byte, ∃ ws, loadIn b = ws ++ [.w32 0x000C (BitVec.ofNat 32 b.length)] ∧
    ws.length = min ((b.length + 3) / 4) 1024 ∧
    ∀ n < ws.length, ∃ v : Word, ws[n]? = some (.w32 (BitVec.ofNat 16 (0x1000 + 4 * n)) v) ∧
      ∀ j < 4, BitVec.ofNat 8 (v.toNat / 256 ^ j) = if 4 * n + j < b.length then byteAt b (4 * n + j) else 0) ∧
  (∀ i : Instr, runCommand i = [.w32 0x0000 (encode i), .poll 0x0004 0x1 0x0]) ∧
  ∀ (s : State) (T : List Byte) (draws : Nat → Nat), s.cfg.legal → s.phase = .idle → T.length ≤ s.cfg.outBufBytes →
    (∀ i < T.length, s.outBuf.read i = some (byteAt T i)) →
    unpackResult T.length ((List.range ((T.length + 3) / 4)).map fun k =>
      busReadWord (BitVec.ofNat 16 (0x4000 + 4 * k)) { s with draw := draws k }) = T

/-! ### Bus -/

/-- R150: acceptance, a write of any word to CMD while IDLE: the listed fields are written and nothing else changes;
STATUS.BUSY then reads 1 and the bytes of OUT_BUF, which are kept, read `any`; that the window's bytes at and beyond
OUT_BUF_BYTES read `any` too is the model's reading of R85 against R49 (assumption 2). The same write while BUSY is
dropped. -/
def Obligations.AcceptanceOfACommandWord : Prop :=
  ∀ (s : State) (off : Offset) (w : Word), off.toNat < 4 →
    (s.phase = .idle →
      busWrite off w s =
        { s with curCmd := w, done := false, error := false, errCode := 0, writeDropped := false, outLen := 0,
                 phase := .busy } ∧
      (busReadWord 0x0004 (busWrite off w s)).getLsbD 0 = true ∧
      ∀ a j, a % 4 = 0 → a < 0x4000 → j < 4 →
        (busReadWord (BitVec.ofNat 16 (0x4000 + a)) (busWrite off w s)).extractLsb' (8 * j) 8 =
          Config.freeByte s.draw (a + j)) ∧
    (s.phase = .busy → busWrite off w s = { s with writeDropped := true })

/-- R92: every write while BUSY, at any offset, changes nothing but STATUS.WRITE_DROPPED. -/
def Obligations.WritesWhileBusyAreDropped : Prop :=
  ∀ (s : State) (off : Offset) (v : Word), s.phase = .busy → busWrite off v s = { s with writeDropped := true }

/-- R87: what the register words read, in either phase; OUT_LEN reads 0 while BUSY in a state whose flags are as
acceptance leaves them. -/
def Obligations.RegisterWordsRead : Prop :=
  ∀ s : State,
    busReadWord 0x0000 s = 0 ∧
    (busReadWord 0x0004 s).toNat =
      s.errCode.toNat * 256 + s.writeDropped.toNat * 8 + s.error.toNat * 4 + s.done.toNat * 2 +
        (if s.phase = .busy then 1 else 0) ∧
    (busReadWord 0x0008 s).toNat = s.keyLen.toNat ∧
    (busReadWord 0x000C s).toNat = s.inLen.toNat ∧
    (busReadWord 0x0010 s).toNat = s.outLen.toNat ∧
    (s.cfg.legal → (busReadWord 0x0014 s).toNat = s.cfg.outBufBytes * 65536 + s.cfg.inBufBytes) ∧
    (∀ n < 8, busReadWord (BitVec.ofNat 16 (0x0020 + 4 * n)) s = 0) ∧
    (s.flagsOk → s.phase = .busy → busReadWord 0x0010 s = 0)

/-- R42: STATUS bits [7:4] and [31:12] read 0; a write to STATUS changes nothing while IDLE and is dropped while
BUSY. -/
def Obligations.StatusReservedBitsAndWrites : Prop :=
  ∀ (s : State) (v : Word),
    (busReadWord 0x0004 s).extractLsb' 4 4 = 0 ∧ (busReadWord 0x0004 s).extractLsb' 12 20 = 0 ∧
    (s.phase = .idle → busWrite 0x0004 v s = s) ∧
    (s.phase = .busy → busWrite 0x0004 v s = { s with writeDropped := true })

/-- R46: CAPS reads the capacities, 0x20001000 with the defaults; a write is ignored, or dropped while BUSY. -/
def Obligations.CapsReadsTheCapacities : Prop :=
  ∀ (s : State) (v : Word),
    (s.cfg.legal → ((busReadWord 0x0014 s).extractLsb' 0 16).toNat = s.cfg.inBufBytes ∧
      ((busReadWord 0x0014 s).extractLsb' 16 16).toNat = s.cfg.outBufBytes) ∧
    (s.cfg.inBufBytes = 4096 → s.cfg.outBufBytes = 8192 → busReadWord 0x0014 s = 0x20001000) ∧
    (s.phase = .idle → busWrite 0x0014 v s = s) ∧
    (s.phase = .busy → busWrite 0x0014 v s = { s with writeDropped := true })

/-- R88: writes of the register words while IDLE: CMD accepts, KEY_LEN and IN_LEN store the truncated value, KEYn
stores four bytes by lanes, STATUS, OUT_LEN and CAPS ignore the write; while BUSY every write is dropped. -/
def Obligations.RegisterWordsWrite : Prop :=
  ∀ (s : State) (v : Word),
    (s.phase = .idle →
      busWrite 0x0000 v s =
        { s with curCmd := v, done := false, error := false, errCode := 0, writeDropped := false, outLen := 0,
                 phase := .busy } ∧
      busWrite 0x0008 v s = { s with keyLen := BitVec.ofNat 6 v.toNat } ∧
      busWrite 0x000C v s = { s with inLen := BitVec.ofNat 16 v.toNat } ∧
      (∀ n < 8, ∀ j < 4,
        byteAt (busWrite (BitVec.ofNat 16 (0x0020 + 4 * n)) v s).key.toList (4 * n + j) =
          BitVec.ofNat 8 (v.toNat / 256 ^ j)) ∧
      busWrite 0x0004 v s = s ∧ busWrite 0x0010 v s = s ∧ busWrite 0x0014 v s = s) ∧
    (s.phase = .busy → ∀ off, busWrite off v s = { s with writeDropped := true })

/-- R47, the write of KEYn while IDLE: its four bytes are the word's lanes, every other key byte and everything else
is unchanged, and the key reads 0. -/
def Obligations.KeyWriteStoresFourBytesOnly : Prop :=
  ∀ (s : State) (n : Nat) (v : Word), n < 8 → s.phase = .idle →
    ∃ t, busWrite (BitVec.ofNat 16 (0x0020 + 4 * n)) v s = t ∧ t = { s with key := t.key } ∧
      (∀ i < 32, byteAt t.key.toList i =
        if i / 4 = n then BitVec.ofNat 8 (v.toNat / 256 ^ (i % 4)) else byteAt s.key.toList i) ∧
      busReadWord (BitVec.ofNat 16 (0x0020 + 4 * n)) t = 0

/-- R47: "the key cannot be read back": no read at any offset, in any phase, tells two keys apart. -/
def Obligations.KeyCannotBeReadBack : Prop :=
  ∀ (s : State) (key : Vector Byte 32) (off : Offset), busReadWord off { s with key := key } = busReadWord off s

/-- R83: a write to the IN_BUF window. -/
def Obligations.InBufWindowWrite : Prop :=
  ∀ (s : State) (off : Offset) (v : Word), 0x1000 ≤ off.toNat → off.toNat ≤ 0x1FFF → s.inBuf.wf = true →
    (s.phase = .idle → ∃ t a, busWrite off v s = t ∧ a = (off.toNat - 0x1000) - (off.toNat - 0x1000) % 4 ∧
      t = { s with inBuf := t.inBuf } ∧
      (∀ j < 4, a + j < s.cfg.inBufBytes → t.inBuf.read (a + j) = some (BitVec.ofNat 8 (v.toNat / 256 ^ j))) ∧
      ∀ k, (k < a ∨ a + 4 ≤ k ∨ s.cfg.inBufBytes ≤ k) → t.inBuf.read k = s.inBuf.read k) ∧
    (s.phase = .busy → busWrite off v s = { s with writeDropped := true })

/-- R84: a read of the IN_BUF window, the same in either phase; an unwritten byte reads `any`. -/
def Obligations.InBufWindowRead : Prop :=
  ∀ (s : State) (off : Offset), 0x1000 ≤ off.toNat → off.toNat ≤ 0x1FFF →
    ∃ a, a = (off.toNat - 0x1000) - (off.toNat - 0x1000) % 4 ∧ ∀ j < 4,
      (busReadWord off s).extractLsb' (8 * j) 8 =
        if a + j < s.cfg.inBufBytes then (s.inBuf.read (a + j)).getD (Config.freeByte s.draw (a + j)) else 0

/-- R85: a read of the OUT_BUF window: `any` while BUSY; while IDLE the byte, `any` for an unspecified byte, 0 at or
beyond OUT_BUF_BYTES. A write is ignored while IDLE and dropped while BUSY. -/
def Obligations.OutBufWindowReadAndWrite : Prop :=
  ∀ (s : State) (off : Offset) (v : Word), 0x4000 ≤ off.toNat → off.toNat ≤ 0x7FFF →
    (∃ a, a = (off.toNat - 0x4000) - (off.toNat - 0x4000) % 4 ∧ ∀ j < 4,
      (s.phase = .busy → (busReadWord off s).extractLsb' (8 * j) 8 = Config.freeByte s.draw (a + j)) ∧
      (s.phase = .idle →
        (busReadWord off s).extractLsb' (8 * j) 8 =
          if a + j < s.cfg.outBufBytes then (s.outBuf.read (a + j)).getD (Config.freeByte s.draw (a + j)) else 0)) ∧
    (s.phase = .idle → busWrite off v s = s) ∧
    (s.phase = .busy → busWrite off v s = { s with writeDropped := true })

/-- R86: a reserved offset reads 0; a write there is ignored while IDLE and dropped while BUSY. -/
def Obligations.ReservedOffsets : Prop :=
  ∀ (s : State) (off : Offset) (v : Word),
    ((0x0018 ≤ off.toNat ∧ off.toNat ≤ 0x001F) ∨ (0x0040 ≤ off.toNat ∧ off.toNat ≤ 0x0FFF) ∨
      (0x2000 ≤ off.toNat ∧ off.toNat ≤ 0x3FFF) ∨ 0x8000 ≤ off.toNat) →
    busReadWord off s = 0 ∧ (s.phase = .idle → busWrite off v s = s) ∧
    (s.phase = .busy → busWrite off v s = { s with writeDropped := true })

/-- R81: bits off[1:0] are ignored: offsets that differ in them only give the same reads and the same writes. -/
def Obligations.OffsetLowBitsAreIgnored : Prop :=
  ∀ (s : State) (off off' : Offset) (v : Word), off.toNat / 4 = off'.toNat / 4 →
    busReadWord off s = busReadWord off' s ∧ busWrite off v s = busWrite off' v s

/-! ### Commands -/

/-- R158, R160: ENC.AES on an input that fits and a legal AES key succeeds with the base64 text of the AES-CBC
encryption of the padded input, the IV being the first 16 key bytes; nothing else changes. -/
def Obligations.EncAesSucceeds : Prop :=
  ∀ s : State, s.cfg.legal → s.inLen.toNat ≤ s.cfg.inBufBytes →
    4 * ((16 * (s.inLen.toNat / 16 + 1) + 2) / 3) ≤ s.cfg.outBufBytes →
    (s.keyLen.toNat = 16 ∨ s.keyLen.toNat = 24 ∨ s.keyLen.toNat = 32) →
    ∃ t K, exec .encAes s = .next t ∧ K = s.key.toList.take s.keyLen.toNat ∧
      succeedsWith s t (base64Encode (cbcEncrypt .aes K (K.take 16) (pkcs7Pad s.inputBytes)))

/-- R158, R161: ENC.SM4 on an input that fits and a 16-byte key succeeds with the base64 text of the SM4-CBC
encryption of the padded input, the IV being the ASCII string 1234567887654321; nothing else changes. -/
def Obligations.EncSm4Succeeds : Prop :=
  ∀ s : State, s.cfg.legal → s.inLen.toNat ≤ s.cfg.inBufBytes →
    4 * ((16 * (s.inLen.toNat / 16 + 1) + 2) / 3) ≤ s.cfg.outBufBytes → s.keyLen.toNat = 16 →
    ∃ t, exec .encSm4 s = .next t ∧
      succeedsWith s t (base64Encode (cbcEncrypt .sm4 (s.key.toList.take 16)
        [0x31, 0x32, 0x33, 0x34, 0x35, 0x36, 0x37, 0x38, 0x38, 0x37, 0x36, 0x35, 0x34, 0x33, 0x32, 0x31]
        (pkcs7Pad s.inputBytes)))

/-- R165, R170: DEC.AES on an input that fits, decodes to a positive multiple of 16 bytes C and, under a legal AES
key, decrypts to a buffer M whose last byte n is from 1 to 16, succeeds with M less its last n bytes; nothing else
changes. -/
def Obligations.DecAesSucceeds : Prop :=
  ∀ (s : State) (C K M : List Byte) (n : Nat), s.cfg.legal → s.inLen.toNat ≤ s.cfg.inBufBytes →
    base64Decode s.inputBytes = .ok C → C.length ≠ 0 → C.length % 16 = 0 →
    (s.keyLen.toNat = 16 ∨ s.keyLen.toNat = 24 ∨ s.keyLen.toNat = 32) → K = s.key.toList.take s.keyLen.toNat →
    M = cbcDecrypt .aes K (K.take 16) C → n = (byteAt M (M.length - 1)).toNat → 1 ≤ n → n ≤ 16 →
    ∃ t, exec .decAes s = .next t ∧ succeedsWith s t (M.take (C.length - n))

/-- R165, R171: DEC.SM4, likewise, under a 16-byte key and the fixed IV. -/
def Obligations.DecSm4Succeeds : Prop :=
  ∀ (s : State) (C M : List Byte) (n : Nat), s.cfg.legal → s.inLen.toNat ≤ s.cfg.inBufBytes →
    base64Decode s.inputBytes = .ok C → C.length ≠ 0 → C.length % 16 = 0 → s.keyLen.toNat = 16 →
    M = cbcDecrypt .sm4 (s.key.toList.take 16)
      [0x31, 0x32, 0x33, 0x34, 0x35, 0x36, 0x37, 0x38, 0x38, 0x37, 0x36, 0x35, 0x34, 0x33, 0x32, 0x31] C →
    n = (byteAt M (M.length - 1)).toNat → 1 ≤ n → n ≤ 16 →
    ∃ t, exec .decSm4 s = .next t ∧ succeedsWith s t (M.take (C.length - n))

/-- R180: an illegal word, written while IDLE, clears the previous command's status and OUT_LEN at acceptance and
completes with ILLEGAL_COMMAND, code 5, so that STATUS reads 0x00000506; no operand is read: in every state the
command ILLEGAL leaves just that failure. Written while BUSY it is dropped and never becomes a command. -/
def Obligations.IllegalCommandCompletesWithCode5 : Prop :=
  (∀ (w : Word) (s : State), ∃ t, exec (.illegal w) s = .next t ∧ failsWith s t 5) ∧
  (∀ (w : Word) (s : State), s.phase = .busy → busWrite 0x0000 w s = { s with writeDropped := true }) ∧
  ∀ (w : Word) (s : State), w ≠ 0x00000001 → w ≠ 0x00000011 → w ≠ 0x00000002 → w ≠ 0x00000012 → s.phase = .idle →
    ∃ t, exec (decode w) (busWrite 0x0000 w s) = .next t ∧
      failsWith { s with curCmd := w, writeDropped := false } t 5 ∧ busReadWord 0x0004 t = 0x00000506

/-- R408: of several failures the first in the order of the rule is reported, with its code of R400, and its failure
leaves no result; with no failure there is no error. `code` is the code the order gives. -/
def Obligations.FirstFailureInPriorityOrderIsReported : Prop :=
  ∀ (i : Instr) (s : State), s.cfg.legal → ∃ t code, exec i s = .next t ∧ t.errCode = code ∧
    (code ≠ 0 → failsWith s t code) ∧ (code = 0 → t.error = false) ∧
    (∀ w, i = .illegal w → code = 5) ∧
    (∀ alg, i = encCommand alg →
      code =
        if s.cfg.inBufBytes < s.inLen.toNat then 6
        else if s.cfg.outBufBytes < 4 * ((16 * (s.inLen.toNat / 16 + 1) + 2) / 3) then 6
        else if keyLenOk alg s.keyLen.toNat = false then 1
        else 0) ∧
    (∀ alg, i = decCommand alg →
      (s.cfg.inBufBytes < s.inLen.toNat → code = 6) ∧
      (s.inLen.toNat ≤ s.cfg.inBufBytes → base64Valid s.inputBytes = false → code = 2) ∧
      ∀ C M, s.inLen.toNat ≤ s.cfg.inBufBytes → base64Decode s.inputBytes = .ok C →
        M = cbcDecrypt alg (s.key.toList.take s.keyLen.toNat) (deriveIv alg (s.key.toList.take s.keyLen.toNat)) C →
        code =
          if C.length = 0 ∨ C.length % 16 ≠ 0 then 3
          else if keyLenOk alg s.keyLen.toNat = false then 1
          else if (byteAt M (M.length - 1)).toNat < 1 ∨ 16 < (byteAt M (M.length - 1)).toNat then 4
          else 0)

/-- R410: a failed command publishes no part of a result and changes nothing but the listed fields. -/
def Obligations.FailedCommandPublishesNothing : Prop :=
  ∀ (i : Instr) (s t : State), exec i s = .next t → t.error = true →
    failsWith s t t.errCode ∧ t.errCode ≠ 0 ∧ t.errCode.toNat ≤ 6

/-- R153, the frame of every command: CUR_CMD, WRITE_DROPPED, KEY, KEY_LEN, IN_LEN, every byte of IN_BUF, the
parameters, the masters and the turns are unchanged; OUT_BUF is specified exactly below OUT_LEN. -/
def Obligations.CommandsLeaveTheirFrame : Prop :=
  ∀ (i : Instr) (s t : State), s.cfg.legal → exec i s = .next t →
    t.curCmd = s.curCmd ∧ t.writeDropped = s.writeDropped ∧ t.key = s.key ∧ t.keyLen = s.keyLen ∧
    t.inLen = s.inLen ∧ (∀ a, t.inBuf.read a = s.inBuf.read a) ∧ t.inBuf = s.inBuf ∧ t.cfg = s.cfg ∧
    t.masters = s.masters ∧ t.schedule = s.schedule ∧
    ∀ a, (t.outBuf.read a).isSome = true ↔ a < t.outLen.toNat

/-- R159: an encryption's result has 4·((clen + 2) div 3) bytes, all of them ASCII, is never empty, and an encryption
fails with LENGTH_OVERFLOW or INVALID_KEY_LENGTH only. -/
def Obligations.EncryptionOutputs : Prop :=
  ∀ (alg : Alg) (s t : State), s.cfg.legal → exec (encCommand alg) s = .next t →
    (t.error = false → t.outLen.toNat = 4 * ((16 * (s.inLen.toNat / 16 + 1) + 2) / 3) ∧ t.outLen ≠ 0 ∧
      ∀ a b, t.outBuf.read a = some b → b.toNat < 128) ∧
    (t.error = true → t.errCode = 6 ∨ t.errCode = 1)

/-- R166, R157: a successful decryption's result has len(C) - n bytes for an n from 1 to 16, so it is shorter than
its text and fits OUT_BUF. -/
def Obligations.DecryptionOutputs : Prop :=
  ∀ (alg : Alg) (s t : State), s.cfg.legal → exec (decCommand alg) s = .next t → t.error = false →
    (∃ C n, base64Decode s.inputBytes = .ok C ∧ 1 ≤ n ∧ n ≤ 16 ∧ n ≤ C.length ∧ t.outLen.toNat = C.length - n) ∧
    t.outLen.toNat < s.inLen.toNat ∧ t.outLen.toNat ≤ s.cfg.outBufBytes

/-- R53, R188: the result of a command depends on its operands only: two states that agree on the parameters, on
KEY_LEN, IN_LEN, KEY[0..KEY_LEN) and the input bytes IN_BUF has, whatever else they hold, get the same OUT_LEN,
OUT_BUF, ERROR and ERR_CODE. -/
def Obligations.ResultDependsOnOperandsOnly : Prop :=
  ∀ (i : Instr) (s s' : State), s.cfg = s'.cfg → s.keyLen = s'.keyLen → s.inLen = s'.inLen →
    (∀ k < s.keyLen.toNat, byteAt s.key.toList k = byteAt s'.key.toList k) →
    (∀ k < min s.inLen.toNat s.cfg.inBufBytes, s.inByte k = s'.inByte k) →
    ∃ t t', exec i s = .next t ∧ exec i s' = .next t' ∧ t.outLen = t'.outLen ∧ t.outBuf = t'.outBuf ∧
      t.error = t'.error ∧ t.errCode = t'.errCode

/-- R187: the round trip. An encryption of p whose text fits both buffers succeeds; the decryption of its output, the
same key in place, gives p back. A longer p, whose text fits OUT_BUF but not IN_BUF, is encrypted but the decryption of
its output, of which IN_BUF holds as much as it has room for, fails with LENGTH_OVERFLOW. With IN_BUF_BYTES = 4096 the
bound is 3071 bytes. -/
def Obligations.DecryptionUndoesEncryption : Prop :=
  (∀ (alg : Alg) (s : State) (p : List Byte) (olen : Nat), s.cfg.legal → keyLenOk alg s.keyLen.toNat = true →
    s.holdsInput p → p.length ≤ s.cfg.inBufBytes →
    olen = 4 * ((16 * (p.length / 16 + 1) + 2) / 3) → olen ≤ s.cfg.outBufBytes →
    ∃ t c, exec (encCommand alg) s = .next t ∧ succeedsWith s t c ∧ c.length = olen ∧
      ∀ u : State, u.cfg = s.cfg → u.key = s.key → u.keyLen = s.keyLen → u.holdsInput c →
        ∃ v, exec (decCommand alg) u = .next v ∧
          (olen ≤ s.cfg.inBufBytes → succeedsWith u v p) ∧ (s.cfg.inBufBytes < olen → failsWith u v 6)) ∧
  ∀ n : Nat, 4 * ((16 * (n / 16 + 1) + 2) / 3) ≤ 4096 ↔ n ≤ 3071

/-! ### Padding -/

/-- R205 and R201: unpadding undoes padding, and the padded length is 16·(L div 16 + 1) = ceil((L + 1) / 16)·16, a
positive multiple of 16. -/
def Obligations.UnpaddingUndoesPadding : Prop :=
  ∀ P : List Byte, pkcs7Unpad (pkcs7Pad P) = .ok P ∧
    (pkcs7Pad P).length = 16 * (P.length / 16 + 1) ∧ (pkcs7Pad P).length = (P.length + 1 + 15) / 16 * 16 ∧
    0 < (pkcs7Pad P).length ∧ (pkcs7Pad P).length % 16 = 0

/-- R202, R203: the decoder looks at the last byte n alone: outside [1, 16] it raises INVALID_PADDING; in [1, 16] it
strips exactly n bytes, whatever the stripped bytes before the last hold. -/
def Obligations.UnpaddingChecksTheLastByteOnly : Prop :=
  ∀ (A X : List Byte) (n : Byte), 16 ≤ A.length + X.length + 1 →
    ((n.toNat < 1 ∨ 16 < n.toNat) → pkcs7Unpad (A ++ X ++ [n]) = .error .invalidPadding) ∧
    (1 ≤ n.toNat → n.toNat ≤ 16 → X.length + 1 = n.toNat → pkcs7Unpad (A ++ X ++ [n]) = .ok A)

/-! ### Base64 -/

/-- R348: decoding undoes encoding; encoding undoes the decoding of a valid text whose discarded pad bits are zero. -/
def Obligations.Base64InverseLaws : Prop :=
  (∀ B : List Byte, base64Decode (base64Encode B) = .ok B) ∧
  ∀ T B : List Byte, base64Decode T = .ok B →
    (∀ A c0 c1, T = A ++ [c0, c1, 0x3D, 0x3D] → ∀ v, base64Val c1 = some v → v.toNat % 16 = 0) →
    (∀ A c0 c1 c2, T = A ++ [c0, c1, c2, 0x3D] → ∀ v, base64Val c2 = some v → v.toNat % 4 = 0) →
    base64Encode B = T

/-- R344: the texts the decoder accepts: the length a multiple of 4; every byte before the last group one of the 64
characters; the last group four characters, or three and `=`, or two and `==`. Any other text raises
INVALID_ENCODING. -/
def Obligations.Base64ValidTexts : Prop :=
  ∀ T : List Byte,
    ((∃ B, base64Decode T = .ok B) ↔
      T.length % 4 = 0 ∧ (∀ i, i + 4 < T.length → isBase64Char (byteAt T i) = true) ∧
      (T ≠ [] → ∃ A c0 c1 c2 c3, T = A ++ [c0, c1, c2, c3] ∧ isBase64Char c0 = true ∧ isBase64Char c1 = true ∧
        ((isBase64Char c2 = true ∧ isBase64Char c3 = true) ∨ (isBase64Char c2 = true ∧ c3 = 0x3D) ∨
          (c2 = 0x3D ∧ c3 = 0x3D)))) ∧
    ((∀ B, base64Decode T ≠ .ok B) → base64Decode T = .error .invalidEncoding)

/-- R340: the 64 characters: `char` gives A..Z, a..z, 0..9, + and / for 0..25, 26..51, 52..61, 62 and 63; `val` undoes
it, and no other byte has a value, `=` among them. -/
def Obligations.Base64Alphabet : Prop :=
  (∀ v : BitVec 6,
    (v.toNat ≤ 25 → (base64Char v).toNat = 0x41 + v.toNat) ∧
    (26 ≤ v.toNat → v.toNat ≤ 51 → (base64Char v).toNat = 0x61 + (v.toNat - 26)) ∧
    (52 ≤ v.toNat → v.toNat ≤ 61 → (base64Char v).toNat = 0x30 + (v.toNat - 52)) ∧
    (v.toNat = 62 → base64Char v = 0x2B) ∧ (v.toNat = 63 → base64Char v = 0x2F)) ∧
  (∀ (c : Byte) (v : BitVec 6), base64Val c = some v ↔ c = base64Char v) ∧ base64Val 0x3D = none

/-- R341: the encoded length is 4·((n + 2) div 3); the text ends in `==` exactly when n mod 3 = 1, in one `=` when n
mod 3 = 2, and holds no pad when n mod 3 = 0. -/
def Obligations.Base64EncodedLengthAndPads : Prop :=
  ∀ B : List Byte, (base64Encode B).length = 4 * ((B.length + 2) / 3) ∧
    (B.length % 3 = 0 → ∀ c ∈ base64Encode B, isBase64Char c = true) ∧
    (B.length % 3 = 1 → ∃ A, base64Encode B = A ++ [0x3D, 0x3D] ∧ ∀ c ∈ A, isBase64Char c = true) ∧
    (B.length % 3 = 2 → ∃ A, base64Encode B = A ++ [0x3D] ∧ ∀ c ∈ A, isBase64Char c = true)

/-- R346: non-canonical pad bits are accepted: characters of a last group that differ only in the discarded bits give
the same bytes. -/
def Obligations.Base64PadBitsAreDiscarded : Prop :=
  ∀ (A : List Byte) (c0 c1 c1' c2 c2' : Byte) (v v' : BitVec 6), A.length % 4 = 0 →
    (∀ c ∈ A, isBase64Char c = true) → isBase64Char c0 = true →
    (base64Val c1 = some v → base64Val c1' = some v' → v.toNat / 16 = v'.toNat / 16 →
      ∃ B, base64Decode (A ++ [c0, c1, 0x3D, 0x3D]) = .ok B ∧ base64Decode (A ++ [c0, c1', 0x3D, 0x3D]) = .ok B) ∧
    (isBase64Char c1 = true → base64Val c2 = some v → base64Val c2' = some v' → v.toNat / 4 = v'.toNat / 4 →
      ∃ B, base64Decode (A ++ [c0, c1, c2, 0x3D]) = .ok B ∧ base64Decode (A ++ [c0, c1, c2', 0x3D]) = .ok B)

/-! ### CBC -/

/-- R223: block i of the ciphertext is the cipher of block i of the message xored with the ciphertext block before it,
the IV for the first. -/
def Obligations.CbcEncryptionChainsItsBlocks : Prop :=
  ∀ (alg : Alg) (K IV M C : List Byte) (N : Nat), IV.length = 16 → M.length = 16 * N → 1 ≤ N →
    C = cbcEncrypt alg K IV M →
    C.length = 16 * N ∧ ∀ i < N,
      (C.drop (16 * i)).take 16 =
        blockEncrypt alg K (xorBytes ((M.drop (16 * i)).take 16)
          (if i = 0 then IV else (C.drop (16 * (i - 1))).take 16))

/-- R224: block i of the message is the inverse cipher of ciphertext block i xored with the received ciphertext block
before it, the IV for the first. -/
def Obligations.CbcDecryptionChainsItsBlocks : Prop :=
  ∀ (alg : Alg) (K IV M C : List Byte) (N : Nat), IV.length = 16 → C.length = 16 * N → 1 ≤ N →
    M = cbcDecrypt alg K IV C →
    M.length = 16 * N ∧ ∀ i < N,
      (M.drop (16 * i)).take 16 =
        xorBytes (blockDecrypt alg K ((C.drop (16 * i)).take 16))
          (if i = 0 then IV else (C.drop (16 * (i - 1))).take 16)

/-- R225: CBC decryption undoes CBC encryption, for every legal key of either cipher. -/
def Obligations.CbcDecryptionUndoesEncryption : Prop :=
  ∀ (alg : Alg) (K IV M : List Byte) (N : Nat), keyLenOk alg K.length = true → IV.length = 16 →
    M.length = 16 * N → cbcDecrypt alg K IV (cbcEncrypt alg K IV M) = M

/-- R227: changing ciphertext block i leaves every decrypted block but i and i+1 alone, and flips in decrypted block
i+1 just the bits that were flipped in ciphertext block i. -/
def Obligations.CbcErrorPropagation : Prop :=
  ∀ (alg : Alg) (K IV A B B' D : List Byte) (i : Nat), IV.length = 16 → A.length = 16 * i → B.length = 16 →
    B'.length = 16 → D.length % 16 = 0 →
    ∃ M M', M = cbcDecrypt alg K IV (A ++ B ++ D) ∧ M' = cbcDecrypt alg K IV (A ++ B' ++ D) ∧
      M.length = M'.length ∧ M.take (16 * i) = M'.take (16 * i) ∧ M.drop (16 * (i + 2)) = M'.drop (16 * (i + 2)) ∧
      (D ≠ [] → xorBytes ((M.drop (16 * (i + 1))).take 16) ((M'.drop (16 * (i + 1))).take 16) = xorBytes B B')

/-! ### Ciphers -/

/-- R252, R253: `•` is the multiplication of GF(2^8) modulo 0x11B: it is linear over xor in both operands, 1 is its
unit, multiplying by x (0x02) on either side is xtime, and it is commutative. -/
def Obligations.GfMultiplicationLaws : Prop :=
  ∀ a b c : Byte, gfMul (a ^^^ b) c = gfMul a c ^^^ gfMul b c ∧ gfMul a (b ^^^ c) = gfMul a b ^^^ gfMul a c ∧
    gfMul 1 a = a ∧ gfMul 2 a = xtime a ∧ gfMul (xtime a) b = xtime (gfMul a b) ∧ gfMul a b = gfMul b a

/-- R254 to R256: the S-box table is the affine map of the field inverse, and the inverse S-box undoes it. -/
def Obligations.SboxTablesAreTheAlgebraicOnes : Prop :=
  ∀ a : Byte, sbox a = sboxAlgebraic a ∧ invSbox (sbox a) = a ∧
    gfMul a (gfInv a) = (if a = 0 then 0 else 1) ∧
    ∀ i < 8, (sbox a).getLsbD i =
      (((gfInv a).getLsbD i ^^ (gfInv a).getLsbD ((i + 4) % 8)) ^^ ((gfInv a).getLsbD ((i + 5) % 8) ^^
        (gfInv a).getLsbD ((i + 6) % 8)) ^^ ((gfInv a).getLsbD ((i + 7) % 8) ^^ (0x63 : Byte).getLsbD i))

/-- R250, R266: the key schedule has 4·(Nr + 1) words; the first Nk are the key's, and each later word follows the
recurrence of the rule. -/
def Obligations.AesKeyExpansionRecurrence : Prop :=
  ∀ (K : List Byte) (Nk : Nat), (Nk = 4 ∨ Nk = 6 ∨ Nk = 8) → K.length = 4 * Nk →
    ∃ w, w = keyExpansion K ∧ w.length = 4 * (Nk + 7) ∧
      (∀ i < Nk, wordAt w i = ⟨byteAt K (4 * i), byteAt K (4 * i + 1), byteAt K (4 * i + 2), byteAt K (4 * i + 3)⟩) ∧
      ∀ i, Nk ≤ i → i < 4 * (Nk + 7) →
        wordAt w i = xorWord (wordAt w (i - Nk))
          (if i % Nk = 0 then xorWord (subWord (rotWord (wordAt w (i - 1)))) (rcon (i / Nk))
           else if Nk = 8 ∧ i % Nk = 4 then subWord (wordAt w (i - 1))
           else wordAt w (i - 1))

/-- R268: the inverse AES cipher undoes the forward one, for every legal key and every block. -/
def Obligations.AesDecryptionUndoesEncryption : Prop :=
  ∀ K B : List Byte, (K.length = 16 ∨ K.length = 24 ∨ K.length = 32) → B.length = 16 →
    aesDecrypt K (aesEncrypt K B) = B

/-- R307: the SM4 round keys are k[4..36) of the recurrence k[i+4] = k[i] ⊕ T'(k[i+1] ⊕ k[i+2] ⊕ k[i+3] ⊕ CK[i]) from
the key words xored with FK0..FK3. -/
def Obligations.Sm4KeyScheduleRecurrence : Prop :=
  ∀ K : List Byte, K.length = 16 →
    ∃ k : Nat → Word,
      k 0 = be32 (byteAt K 0) (byteAt K 1) (byteAt K 2) (byteAt K 3) ^^^ 0xa3b1bac6 ∧
      k 1 = be32 (byteAt K 4) (byteAt K 5) (byteAt K 6) (byteAt K 7) ^^^ 0x56aa3350 ∧
      k 2 = be32 (byteAt K 8) (byteAt K 9) (byteAt K 10) (byteAt K 11) ^^^ 0x677d9197 ∧
      k 3 = be32 (byteAt K 12) (byteAt K 13) (byteAt K 14) (byteAt K 15) ^^^ 0xb27022dc ∧
      (∀ i, k (i + 4) = k i ^^^ sm4T' (k (i + 1) ^^^ k (i + 2) ^^^ k (i + 3) ^^^ sm4CK i)) ∧
      sm4KeySchedule K = (List.range 32).map fun i => k (i + 4)

/-- R309: E_SM4 is the recurrence X[i+4] = F(X[i], X[i+1], X[i+2], X[i+3], rk[i]) over 32 round keys, with the output
words in reverse order. -/
def Obligations.Sm4EncryptionRecurrence : Prop :=
  ∀ K B : List Byte, K.length = 16 → B.length = 16 →
    ∃ X : Nat → Word,
      X 0 = be32 (byteAt B 0) (byteAt B 1) (byteAt B 2) (byteAt B 3) ∧
      X 1 = be32 (byteAt B 4) (byteAt B 5) (byteAt B 6) (byteAt B 7) ∧
      X 2 = be32 (byteAt B 8) (byteAt B 9) (byteAt B 10) (byteAt B 11) ∧
      X 3 = be32 (byteAt B 12) (byteAt B 13) (byteAt B 14) (byteAt B 15) ∧
      (∀ i < 32, X (i + 4) =
        X i ^^^ sm4T (X (i + 1) ^^^ X (i + 2) ^^^ X (i + 3) ^^^ (sm4KeySchedule K).getD i 0)) ∧
      sm4Encrypt K B = bytesBe32 (X 35) ++ bytesBe32 (X 34) ++ bytesBe32 (X 33) ++ bytesBe32 (X 32)

/-- R310: the inverse SM4 cipher undoes the forward one, for every key and every block. -/
def Obligations.Sm4DecryptionUndoesEncryption : Prop :=
  ∀ K B : List Byte, K.length = 16 → B.length = 16 → sm4Decrypt K (sm4Encrypt K B) = B

/-! ### Reset and the invariant -/

/-- R450, R451: a reset turn, in either phase, leaves the core IDLE with STATUS, KEY_LEN, IN_LEN and OUT_LEN 0, every key
byte 0 and every byte of both buffers unspecified: DONE is not set for an abandoned command. The state the machine
starts in is of this form too. -/
def Obligations.ResetClearsTheCore : Prop :=
  (∀ (s : State) (ts : List Turn), s.schedule = .reset :: ts → ∃ t, step s = .next t ∧ t.phase = .idle ∧
    busReadWord 0x0004 t = 0 ∧ t.keyLen = 0 ∧ t.inLen = 0 ∧ t.outLen = 0 ∧
    (∀ i < 32, byteAt t.key.toList i = 0) ∧ (∀ a, t.inBuf.read a = none) ∧ (∀ a, t.outBuf.read a = none)) ∧
  State.reset.phase = .idle ∧ busReadWord 0x0004 State.reset = 0 ∧ State.reset.keyLen = 0 ∧ State.reset.inLen = 0 ∧
  State.reset.outLen = 0 ∧ (∀ i < 32, byteAt State.reset.key.toList i = 0) ∧
  (∀ a, State.reset.inBuf.read a = none) ∧ ∀ a, State.reset.outBuf.read a = none

/-- The state after reset, with the default parameters of R7, meets the invariant. -/
def Obligations.ResetMeetsTheInvariant : Prop := State.reset.Inv

/-- Every step keeps the invariant: legal parameters; memories canonical and inside their capacities (R48, R49); the
flags as R37 to R41 and R54 have them; OUT_BUF specified exactly below OUT_LEN while IDLE (R45). -/
def Obligations.EveryStepKeepsTheInvariant : Prop :=
  ∀ s t : State, s.Inv → step s = .next t → t.Inv
end

