-- ==== Sys2Proof/Laws/Base64.lean ====
section
/-! SUPPORT. The base64 units: characters and values go back and forth, and so do the groups. -/

namespace Sys2Proof.Machine

@[simp] theorem base64Val_base64Char : ∀ v : BitVec 6, base64Val (base64Char v) = some v := by decide

@[simp] theorem isBase64Char_base64Char (v : BitVec 6) : isBase64Char (base64Char v) = true := by simp [isBase64Char]

/-- No character is the pad. -/
theorem base64Char_ne_padChar : ∀ v : BitVec 6, base64Char v ≠ padChar := by decide

@[simp] theorem isBase64Char_padChar : isBase64Char padChar = false := rfl

@[simp] theorem valOrZero_padChar : valOrZero padChar = 0 := rfl

/-- A byte with a value is the character of that value. -/
theorem base64Char_of_val {c : Byte} {v : BitVec 6} (h : base64Val c = some v) : base64Char v = c := by
  have all : ∀ c : Byte, (base64Val c).all (fun v => base64Char v == c) = true := by decide +kernel
  simpa [h] using all c

/-- A character is the character of some value. -/
theorem exists_value {c : Byte} (h : isBase64Char c = true) : ∃ v, c = base64Char v := by
  obtain ⟨v, hv⟩ := Option.isSome_iff_exists.1 h
  exact ⟨v, (base64Char_of_val hv).symm⟩

/-- The four 6-bit parts of a group value are the whole value. -/
theorem groupParts_append (v : BitVec 24) :
    v.extractLsb' 18 6 ++ v.extractLsb' 12 6 ++ v.extractLsb' 6 6 ++ v.extractLsb' 0 6 = v := by
  apply BitVec.eq_of_getLsbD_eq
  intro i hi
  simp only [BitVec.getLsbD_append, BitVec.getLsbD_extractLsb']
  interval_cases i <;> rfl

/-- The bytes of a group value. -/
theorem groupValue_bytes (b0 b1 b2 : Byte) :
    (groupValue b0 b1 b2).extractLsb' 16 8 = b0 ∧ (groupValue b0 b1 b2).extractLsb' 8 8 = b1 ∧
      (groupValue b0 b1 b2).extractLsb' 0 8 = b2 := by
  refine ⟨?_, ?_, ?_⟩ <;>
  · apply BitVec.eq_of_getLsbD_eq
    intro i hi
    unfold groupValue
    simp only [BitVec.getLsbD_append, BitVec.getLsbD_extractLsb']
    interval_cases i <;> rfl

/-- Decoding an encoded group of three bytes. -/
theorem groupBytes_groupChars (b0 b1 b2 : Byte) :
    groupBytes (groupChars (groupValue b0 b1 b2)).1 (groupChars (groupValue b0 b1 b2)).2.1
      (groupChars (groupValue b0 b1 b2)).2.2.1 (groupChars (groupValue b0 b1 b2)).2.2.2 = [b0, b1, b2] := by
  simp only [groupChars, groupBytes, valOrZero, base64Val_base64Char, padsInGroup, base64Char_ne_padChar, if_false,
    Option.getD_some, groupParts_append, groupValue_bytes]
  rfl

end Sys2Proof.Machine
end

