-- ==== Sys2Proof/Laws/State.lean ====
section
/-! SUPPORT. One lemma per field per update of the state, true by rfl, so that no proof unfolds a record update. -/

namespace Sys2Proof.Machine

/-! ### acceptFlags -/

@[simp] theorem State.acceptFlags_phase (s : State) : s.acceptFlags.phase = .busy := rfl
@[simp] theorem State.acceptFlags_curCmd (s : State) : s.acceptFlags.curCmd = s.curCmd := rfl
@[simp] theorem State.acceptFlags_done (s : State) : s.acceptFlags.done = false := rfl
@[simp] theorem State.acceptFlags_error (s : State) : s.acceptFlags.error = false := rfl
@[simp] theorem State.acceptFlags_writeDropped (s : State) : s.acceptFlags.writeDropped = false := rfl
@[simp] theorem State.acceptFlags_errCode (s : State) : s.acceptFlags.errCode = 0 := rfl
@[simp] theorem State.acceptFlags_keyLen (s : State) : s.acceptFlags.keyLen = s.keyLen := rfl
@[simp] theorem State.acceptFlags_inLen (s : State) : s.acceptFlags.inLen = s.inLen := rfl
@[simp] theorem State.acceptFlags_outLen (s : State) : s.acceptFlags.outLen = s.outLen := rfl
@[simp] theorem State.acceptFlags_key (s : State) : s.acceptFlags.key = s.key := rfl
@[simp] theorem State.acceptFlags_inBuf (s : State) : s.acceptFlags.inBuf = s.inBuf := rfl
@[simp] theorem State.acceptFlags_outBuf (s : State) : s.acceptFlags.outBuf = s.outBuf := rfl
@[simp] theorem State.acceptFlags_cfg (s : State) : s.acceptFlags.cfg = s.cfg := rfl
@[simp] theorem State.acceptFlags_masters (s : State) : s.acceptFlags.masters = s.masters := rfl
@[simp] theorem State.acceptFlags_schedule (s : State) : s.acceptFlags.schedule = s.schedule := rfl
@[simp] theorem State.acceptFlags_draw (s : State) : s.acceptFlags.draw = s.draw := rfl

/-! ### successFlags -/

@[simp] theorem State.successFlags_phase (s : State) : s.successFlags.phase = .idle := rfl
@[simp] theorem State.successFlags_curCmd (s : State) : s.successFlags.curCmd = s.curCmd := rfl
@[simp] theorem State.successFlags_done (s : State) : s.successFlags.done = true := rfl
@[simp] theorem State.successFlags_error (s : State) : s.successFlags.error = false := rfl
@[simp] theorem State.successFlags_writeDropped (s : State) : s.successFlags.writeDropped = s.writeDropped := rfl
@[simp] theorem State.successFlags_errCode (s : State) : s.successFlags.errCode = 0 := rfl
@[simp] theorem State.successFlags_keyLen (s : State) : s.successFlags.keyLen = s.keyLen := rfl
@[simp] theorem State.successFlags_inLen (s : State) : s.successFlags.inLen = s.inLen := rfl
@[simp] theorem State.successFlags_outLen (s : State) : s.successFlags.outLen = s.outLen := rfl
@[simp] theorem State.successFlags_key (s : State) : s.successFlags.key = s.key := rfl
@[simp] theorem State.successFlags_inBuf (s : State) : s.successFlags.inBuf = s.inBuf := rfl
@[simp] theorem State.successFlags_outBuf (s : State) : s.successFlags.outBuf = s.outBuf := rfl
@[simp] theorem State.successFlags_cfg (s : State) : s.successFlags.cfg = s.cfg := rfl
@[simp] theorem State.successFlags_masters (s : State) : s.successFlags.masters = s.masters := rfl
@[simp] theorem State.successFlags_schedule (s : State) : s.successFlags.schedule = s.schedule := rfl
@[simp] theorem State.successFlags_draw (s : State) : s.successFlags.draw = s.draw := rfl

/-! ### failureFlags -/

@[simp] theorem State.failureFlags_phase (s : State) (c : BitVec 4) : (s.failureFlags c).phase = .idle := rfl
@[simp] theorem State.failureFlags_curCmd (s : State) (c : BitVec 4) : (s.failureFlags c).curCmd = s.curCmd := rfl
@[simp] theorem State.failureFlags_done (s : State) (c : BitVec 4) : (s.failureFlags c).done = true := rfl
@[simp] theorem State.failureFlags_error (s : State) (c : BitVec 4) : (s.failureFlags c).error = true := rfl
@[simp] theorem State.failureFlags_writeDropped (s : State) (c : BitVec 4) : (s.failureFlags c).writeDropped = s.writeDropped := rfl
@[simp] theorem State.failureFlags_errCode (s : State) (c : BitVec 4) : (s.failureFlags c).errCode = c := rfl
@[simp] theorem State.failureFlags_keyLen (s : State) (c : BitVec 4) : (s.failureFlags c).keyLen = s.keyLen := rfl
@[simp] theorem State.failureFlags_inLen (s : State) (c : BitVec 4) : (s.failureFlags c).inLen = s.inLen := rfl
@[simp] theorem State.failureFlags_outLen (s : State) (c : BitVec 4) : (s.failureFlags c).outLen = s.outLen := rfl
@[simp] theorem State.failureFlags_key (s : State) (c : BitVec 4) : (s.failureFlags c).key = s.key := rfl
@[simp] theorem State.failureFlags_inBuf (s : State) (c : BitVec 4) : (s.failureFlags c).inBuf = s.inBuf := rfl
@[simp] theorem State.failureFlags_outBuf (s : State) (c : BitVec 4) : (s.failureFlags c).outBuf = s.outBuf := rfl
@[simp] theorem State.failureFlags_cfg (s : State) (c : BitVec 4) : (s.failureFlags c).cfg = s.cfg := rfl
@[simp] theorem State.failureFlags_masters (s : State) (c : BitVec 4) : (s.failureFlags c).masters = s.masters := rfl
@[simp] theorem State.failureFlags_schedule (s : State) (c : BitVec 4) : (s.failureFlags c).schedule = s.schedule := rfl
@[simp] theorem State.failureFlags_draw (s : State) (c : BitVec 4) : (s.failureFlags c).draw = s.draw := rfl

/-! ### droppedWriteFlag -/

@[simp] theorem State.droppedWriteFlag_phase (s : State) : s.droppedWriteFlag.phase = s.phase := rfl
@[simp] theorem State.droppedWriteFlag_curCmd (s : State) : s.droppedWriteFlag.curCmd = s.curCmd := rfl
@[simp] theorem State.droppedWriteFlag_done (s : State) : s.droppedWriteFlag.done = s.done := rfl
@[simp] theorem State.droppedWriteFlag_error (s : State) : s.droppedWriteFlag.error = s.error := rfl
@[simp] theorem State.droppedWriteFlag_writeDropped (s : State) : s.droppedWriteFlag.writeDropped = true := rfl
@[simp] theorem State.droppedWriteFlag_errCode (s : State) : s.droppedWriteFlag.errCode = s.errCode := rfl
@[simp] theorem State.droppedWriteFlag_keyLen (s : State) : s.droppedWriteFlag.keyLen = s.keyLen := rfl
@[simp] theorem State.droppedWriteFlag_inLen (s : State) : s.droppedWriteFlag.inLen = s.inLen := rfl
@[simp] theorem State.droppedWriteFlag_outLen (s : State) : s.droppedWriteFlag.outLen = s.outLen := rfl
@[simp] theorem State.droppedWriteFlag_key (s : State) : s.droppedWriteFlag.key = s.key := rfl
@[simp] theorem State.droppedWriteFlag_inBuf (s : State) : s.droppedWriteFlag.inBuf = s.inBuf := rfl
@[simp] theorem State.droppedWriteFlag_outBuf (s : State) : s.droppedWriteFlag.outBuf = s.outBuf := rfl
@[simp] theorem State.droppedWriteFlag_cfg (s : State) : s.droppedWriteFlag.cfg = s.cfg := rfl
@[simp] theorem State.droppedWriteFlag_masters (s : State) : s.droppedWriteFlag.masters = s.masters := rfl
@[simp] theorem State.droppedWriteFlag_schedule (s : State) : s.droppedWriteFlag.schedule = s.schedule := rfl
@[simp] theorem State.droppedWriteFlag_draw (s : State) : s.droppedWriteFlag.draw = s.draw := rfl

/-! ### nextDraw -/

@[simp] theorem State.nextDraw_phase (s : State) : s.nextDraw.phase = s.phase := rfl
@[simp] theorem State.nextDraw_curCmd (s : State) : s.nextDraw.curCmd = s.curCmd := rfl
@[simp] theorem State.nextDraw_done (s : State) : s.nextDraw.done = s.done := rfl
@[simp] theorem State.nextDraw_error (s : State) : s.nextDraw.error = s.error := rfl
@[simp] theorem State.nextDraw_writeDropped (s : State) : s.nextDraw.writeDropped = s.writeDropped := rfl
@[simp] theorem State.nextDraw_errCode (s : State) : s.nextDraw.errCode = s.errCode := rfl
@[simp] theorem State.nextDraw_keyLen (s : State) : s.nextDraw.keyLen = s.keyLen := rfl
@[simp] theorem State.nextDraw_inLen (s : State) : s.nextDraw.inLen = s.inLen := rfl
@[simp] theorem State.nextDraw_outLen (s : State) : s.nextDraw.outLen = s.outLen := rfl
@[simp] theorem State.nextDraw_key (s : State) : s.nextDraw.key = s.key := rfl
@[simp] theorem State.nextDraw_inBuf (s : State) : s.nextDraw.inBuf = s.inBuf := rfl
@[simp] theorem State.nextDraw_outBuf (s : State) : s.nextDraw.outBuf = s.outBuf := rfl
@[simp] theorem State.nextDraw_cfg (s : State) : s.nextDraw.cfg = s.cfg := rfl
@[simp] theorem State.nextDraw_masters (s : State) : s.nextDraw.masters = s.masters := rfl
@[simp] theorem State.nextDraw_schedule (s : State) : s.nextDraw.schedule = s.schedule := rfl
@[simp] theorem State.nextDraw_draw (s : State) : s.nextDraw.draw = s.draw + 1 := rfl

/-! ### accept -/

@[simp] theorem State.accept_phase (s : State) (w : Word) : (s.accept w).phase = .busy := rfl
@[simp] theorem State.accept_curCmd (s : State) (w : Word) : (s.accept w).curCmd = w := rfl
@[simp] theorem State.accept_done (s : State) (w : Word) : (s.accept w).done = false := rfl
@[simp] theorem State.accept_error (s : State) (w : Word) : (s.accept w).error = false := rfl
@[simp] theorem State.accept_writeDropped (s : State) (w : Word) : (s.accept w).writeDropped = false := rfl
@[simp] theorem State.accept_errCode (s : State) (w : Word) : (s.accept w).errCode = 0 := rfl
@[simp] theorem State.accept_keyLen (s : State) (w : Word) : (s.accept w).keyLen = s.keyLen := rfl
@[simp] theorem State.accept_inLen (s : State) (w : Word) : (s.accept w).inLen = s.inLen := rfl
@[simp] theorem State.accept_outLen (s : State) (w : Word) : (s.accept w).outLen = 0 := rfl
@[simp] theorem State.accept_key (s : State) (w : Word) : (s.accept w).key = s.key := rfl
@[simp] theorem State.accept_inBuf (s : State) (w : Word) : (s.accept w).inBuf = s.inBuf := rfl
@[simp] theorem State.accept_outBuf (s : State) (w : Word) : (s.accept w).outBuf = s.outBuf := rfl
@[simp] theorem State.accept_cfg (s : State) (w : Word) : (s.accept w).cfg = s.cfg := rfl
@[simp] theorem State.accept_masters (s : State) (w : Word) : (s.accept w).masters = s.masters := rfl
@[simp] theorem State.accept_schedule (s : State) (w : Word) : (s.accept w).schedule = s.schedule := rfl
@[simp] theorem State.accept_draw (s : State) (w : Word) : (s.accept w).draw = s.draw := rfl

/-! ### succeed -/

@[simp] theorem State.succeed_phase (s : State) (T : List Byte) : (s.succeed T).phase = .idle := rfl
@[simp] theorem State.succeed_curCmd (s : State) (T : List Byte) : (s.succeed T).curCmd = s.curCmd := rfl
@[simp] theorem State.succeed_done (s : State) (T : List Byte) : (s.succeed T).done = true := rfl
@[simp] theorem State.succeed_error (s : State) (T : List Byte) : (s.succeed T).error = false := rfl
@[simp] theorem State.succeed_writeDropped (s : State) (T : List Byte) : (s.succeed T).writeDropped = s.writeDropped := rfl
@[simp] theorem State.succeed_errCode (s : State) (T : List Byte) : (s.succeed T).errCode = 0 := rfl
@[simp] theorem State.succeed_keyLen (s : State) (T : List Byte) : (s.succeed T).keyLen = s.keyLen := rfl
@[simp] theorem State.succeed_inLen (s : State) (T : List Byte) : (s.succeed T).inLen = s.inLen := rfl
@[simp] theorem State.succeed_outLen (s : State) (T : List Byte) : (s.succeed T).outLen = BitVec.ofNat 16 T.length := rfl
@[simp] theorem State.succeed_key (s : State) (T : List Byte) : (s.succeed T).key = s.key := rfl
@[simp] theorem State.succeed_inBuf (s : State) (T : List Byte) : (s.succeed T).inBuf = s.inBuf := rfl
@[simp] theorem State.succeed_outBuf (s : State) (T : List Byte) : (s.succeed T).outBuf = Memory.ofBytes 0 T := rfl
@[simp] theorem State.succeed_cfg (s : State) (T : List Byte) : (s.succeed T).cfg = s.cfg := rfl
@[simp] theorem State.succeed_masters (s : State) (T : List Byte) : (s.succeed T).masters = s.masters := rfl
@[simp] theorem State.succeed_schedule (s : State) (T : List Byte) : (s.succeed T).schedule = s.schedule := rfl
@[simp] theorem State.succeed_draw (s : State) (T : List Byte) : (s.succeed T).draw = s.draw + 1 := rfl

/-! ### raise -/

@[simp] theorem State.raise_phase (s : State) (e : CommandError) : (s.raise e).phase = .idle := rfl
@[simp] theorem State.raise_curCmd (s : State) (e : CommandError) : (s.raise e).curCmd = s.curCmd := rfl
@[simp] theorem State.raise_done (s : State) (e : CommandError) : (s.raise e).done = true := rfl
@[simp] theorem State.raise_error (s : State) (e : CommandError) : (s.raise e).error = true := rfl
@[simp] theorem State.raise_writeDropped (s : State) (e : CommandError) : (s.raise e).writeDropped = s.writeDropped := rfl
@[simp] theorem State.raise_errCode (s : State) (e : CommandError) : (s.raise e).errCode = e.code := rfl
@[simp] theorem State.raise_keyLen (s : State) (e : CommandError) : (s.raise e).keyLen = s.keyLen := rfl
@[simp] theorem State.raise_inLen (s : State) (e : CommandError) : (s.raise e).inLen = s.inLen := rfl
@[simp] theorem State.raise_outLen (s : State) (e : CommandError) : (s.raise e).outLen = 0 := rfl
@[simp] theorem State.raise_key (s : State) (e : CommandError) : (s.raise e).key = s.key := rfl
@[simp] theorem State.raise_inBuf (s : State) (e : CommandError) : (s.raise e).inBuf = s.inBuf := rfl
@[simp] theorem State.raise_outBuf (s : State) (e : CommandError) : (s.raise e).outBuf = [] := rfl
@[simp] theorem State.raise_cfg (s : State) (e : CommandError) : (s.raise e).cfg = s.cfg := rfl
@[simp] theorem State.raise_masters (s : State) (e : CommandError) : (s.raise e).masters = s.masters := rfl
@[simp] theorem State.raise_schedule (s : State) (e : CommandError) : (s.raise e).schedule = s.schedule := rfl
@[simp] theorem State.raise_draw (s : State) (e : CommandError) : (s.raise e).draw = s.draw + 1 := rfl

/-! ### assertReset -/

@[simp] theorem State.assertReset_phase (s : State) : s.assertReset.phase = .idle := rfl
@[simp] theorem State.assertReset_curCmd (s : State) : s.assertReset.curCmd = 0 := rfl
@[simp] theorem State.assertReset_done (s : State) : s.assertReset.done = false := rfl
@[simp] theorem State.assertReset_error (s : State) : s.assertReset.error = false := rfl
@[simp] theorem State.assertReset_writeDropped (s : State) : s.assertReset.writeDropped = false := rfl
@[simp] theorem State.assertReset_errCode (s : State) : s.assertReset.errCode = 0 := rfl
@[simp] theorem State.assertReset_keyLen (s : State) : s.assertReset.keyLen = 0 := rfl
@[simp] theorem State.assertReset_inLen (s : State) : s.assertReset.inLen = 0 := rfl
@[simp] theorem State.assertReset_outLen (s : State) : s.assertReset.outLen = 0 := rfl
@[simp] theorem State.assertReset_key (s : State) : s.assertReset.key = Vector.replicate 32 0 := rfl
@[simp] theorem State.assertReset_inBuf (s : State) : s.assertReset.inBuf = [] := rfl
@[simp] theorem State.assertReset_outBuf (s : State) : s.assertReset.outBuf = [] := rfl
@[simp] theorem State.assertReset_cfg (s : State) : s.assertReset.cfg = s.cfg := rfl
@[simp] theorem State.assertReset_masters (s : State) : s.assertReset.masters = s.masters := rfl
@[simp] theorem State.assertReset_schedule (s : State) : s.assertReset.schedule = s.schedule := rfl
@[simp] theorem State.assertReset_draw (s : State) : s.assertReset.draw = s.draw := rfl

/-! ### setMasters -/

@[simp] theorem State.setMasters_phase (s : State) (ms : List Master) : (s.setMasters ms).phase = s.phase := rfl
@[simp] theorem State.setMasters_curCmd (s : State) (ms : List Master) : (s.setMasters ms).curCmd = s.curCmd := rfl
@[simp] theorem State.setMasters_done (s : State) (ms : List Master) : (s.setMasters ms).done = s.done := rfl
@[simp] theorem State.setMasters_error (s : State) (ms : List Master) : (s.setMasters ms).error = s.error := rfl
@[simp] theorem State.setMasters_writeDropped (s : State) (ms : List Master) : (s.setMasters ms).writeDropped = s.writeDropped := rfl
@[simp] theorem State.setMasters_errCode (s : State) (ms : List Master) : (s.setMasters ms).errCode = s.errCode := rfl
@[simp] theorem State.setMasters_keyLen (s : State) (ms : List Master) : (s.setMasters ms).keyLen = s.keyLen := rfl
@[simp] theorem State.setMasters_inLen (s : State) (ms : List Master) : (s.setMasters ms).inLen = s.inLen := rfl
@[simp] theorem State.setMasters_outLen (s : State) (ms : List Master) : (s.setMasters ms).outLen = s.outLen := rfl
@[simp] theorem State.setMasters_key (s : State) (ms : List Master) : (s.setMasters ms).key = s.key := rfl
@[simp] theorem State.setMasters_inBuf (s : State) (ms : List Master) : (s.setMasters ms).inBuf = s.inBuf := rfl
@[simp] theorem State.setMasters_outBuf (s : State) (ms : List Master) : (s.setMasters ms).outBuf = s.outBuf := rfl
@[simp] theorem State.setMasters_cfg (s : State) (ms : List Master) : (s.setMasters ms).cfg = s.cfg := rfl
@[simp] theorem State.setMasters_masters (s : State) (ms : List Master) : (s.setMasters ms).masters = ms := rfl
@[simp] theorem State.setMasters_schedule (s : State) (ms : List Master) : (s.setMasters ms).schedule = s.schedule := rfl
@[simp] theorem State.setMasters_draw (s : State) (ms : List Master) : (s.setMasters ms).draw = s.draw := rfl

/-! ### setSchedule -/

@[simp] theorem State.setSchedule_phase (s : State) (ts : List Turn) : (s.setSchedule ts).phase = s.phase := rfl
@[simp] theorem State.setSchedule_curCmd (s : State) (ts : List Turn) : (s.setSchedule ts).curCmd = s.curCmd := rfl
@[simp] theorem State.setSchedule_done (s : State) (ts : List Turn) : (s.setSchedule ts).done = s.done := rfl
@[simp] theorem State.setSchedule_error (s : State) (ts : List Turn) : (s.setSchedule ts).error = s.error := rfl
@[simp] theorem State.setSchedule_writeDropped (s : State) (ts : List Turn) : (s.setSchedule ts).writeDropped = s.writeDropped := rfl
@[simp] theorem State.setSchedule_errCode (s : State) (ts : List Turn) : (s.setSchedule ts).errCode = s.errCode := rfl
@[simp] theorem State.setSchedule_keyLen (s : State) (ts : List Turn) : (s.setSchedule ts).keyLen = s.keyLen := rfl
@[simp] theorem State.setSchedule_inLen (s : State) (ts : List Turn) : (s.setSchedule ts).inLen = s.inLen := rfl
@[simp] theorem State.setSchedule_outLen (s : State) (ts : List Turn) : (s.setSchedule ts).outLen = s.outLen := rfl
@[simp] theorem State.setSchedule_key (s : State) (ts : List Turn) : (s.setSchedule ts).key = s.key := rfl
@[simp] theorem State.setSchedule_inBuf (s : State) (ts : List Turn) : (s.setSchedule ts).inBuf = s.inBuf := rfl
@[simp] theorem State.setSchedule_outBuf (s : State) (ts : List Turn) : (s.setSchedule ts).outBuf = s.outBuf := rfl
@[simp] theorem State.setSchedule_cfg (s : State) (ts : List Turn) : (s.setSchedule ts).cfg = s.cfg := rfl
@[simp] theorem State.setSchedule_masters (s : State) (ts : List Turn) : (s.setSchedule ts).masters = s.masters := rfl
@[simp] theorem State.setSchedule_schedule (s : State) (ts : List Turn) : (s.setSchedule ts).schedule = ts := rfl
@[simp] theorem State.setSchedule_draw (s : State) (ts : List Turn) : (s.setSchedule ts).draw = s.draw := rfl

end Sys2Proof.Machine
end

