-- ==== Sys2Proof/Laws/Memory.lean ====
section
/-! SUPPORT. The laws of the byte memories: what a read gives after a write, and that every operation keeps the canonical
form and the capacity. -/

namespace Sys2Proof.Machine

@[simp] theorem Memory.read_nil (k : Nat) : Memory.read [] k = none := rfl

@[simp] theorem Memory.wf_nil : Memory.wf [] = true := rfl

@[simp] theorem Memory.below_nil (n : Nat) : Memory.below n [] = true := rfl

theorem Memory.wf_cons (i : Nat) (b : Byte) (m : Memory) :
    Memory.wf ((i, b) :: m) = Memory.risesAbove i m := rfl

theorem Memory.risesAbove_mono {k k' : Nat} {m : Memory} (hk : k' ≤ k) (h : m.risesAbove k = true) :
    m.risesAbove k' = true := by
  cases m with
  | nil => rfl
  | cons c m =>
    obtain ⟨i, b⟩ := c
    simp only [Memory.risesAbove, Bool.and_eq_true, decide_eq_true_eq] at h ⊢
    exact ⟨by omega, h.2⟩

theorem Memory.wf_of_risesAbove {k : Nat} {m : Memory} (h : m.risesAbove k = true) : m.wf = true := by
  cases m with
  | nil => rfl
  | cons c m =>
    obtain ⟨i, b⟩ := c
    simp only [Memory.risesAbove, Bool.and_eq_true] at h
    exact h.2

/-- A read at or below every listed index's lower bound finds nothing. -/
theorem Memory.read_of_risesAbove {k j : Nat} {m : Memory} (h : m.risesAbove k = true) (hj : j ≤ k) :
    m.read j = none := by
  induction m generalizing k with
  | nil => rfl
  | cons c m ih =>
    obtain ⟨i, b⟩ := c
    simp only [Memory.risesAbove, Bool.and_eq_true, decide_eq_true_eq] at h
    rw [Memory.read, if_neg (by omega)]
    exact ih h.2 (by omega)

/-- A read after a write: the written byte at its index, the old byte everywhere else. -/
theorem Memory.read_write (m : Memory) (k : Nat) (v : Byte) (j : Nat) (h : m.wf = true) :
    (m.write k v).read j = if j = k then some v else m.read j := by
  induction m with
  | nil => simp only [Memory.write, Memory.read]; simp [eq_comm]
  | cons c m ih =>
    obtain ⟨i, b⟩ := c
    have hm : Memory.wf m = true := Memory.wf_of_risesAbove h
    simp only [Memory.write]
    split
    · simp only [Memory.read]
      by_cases hjk : j = k
      · simp [hjk]
      · simp [hjk, Ne.symm hjk]
    · split
      · subst i
        simp only [Memory.read]
        by_cases hjk : j = k
        · simp [hjk]
        · simp [hjk, Ne.symm hjk]
      · simp only [Memory.read, ih hm]
        by_cases hij : i = j
        · simp [hij, show j ≠ k by omega]
        · simp only [if_neg hij]

theorem Memory.risesAbove_write {m : Memory} {l k : Nat} {v : Byte} (h : m.risesAbove l = true) (hl : l < k) :
    (m.write k v).risesAbove l = true := by
  induction m generalizing l with
  | nil => simp [Memory.write, Memory.risesAbove, hl]
  | cons c m ih =>
    obtain ⟨i, b⟩ := c
    simp only [Memory.risesAbove, Bool.and_eq_true, decide_eq_true_eq] at h
    simp only [Memory.write]
    split
    · simp [Memory.risesAbove, *]
    · split
      · subst i
        simp [Memory.risesAbove, *]
      · simp only [Memory.risesAbove, Bool.and_eq_true, decide_eq_true_eq]
        exact ⟨h.1, ih h.2 (by omega)⟩

/-- A write keeps the canonical form. -/
theorem Memory.wf_write {m : Memory} (k : Nat) (v : Byte) (h : m.wf = true) : (m.write k v).wf = true := by
  cases m with
  | nil => rfl
  | cons c m =>
    obtain ⟨i, b⟩ := c
    rw [Memory.wf_cons] at h
    simp only [Memory.write]
    split
    · simp [Memory.wf, Memory.risesAbove, *]
    · split
      · subst i; exact h
      · exact Memory.risesAbove_write h (by omega)

/-- A write below the capacity keeps every listed index below it. -/
theorem Memory.below_write {m : Memory} {n k : Nat} (v : Byte) (h : m.below n = true) (hk : k < n) :
    (m.write k v).below n = true := by
  induction m with
  | nil => simp [Memory.write, Memory.below, hk]
  | cons c m ih =>
    obtain ⟨i, b⟩ := c
    have hc : i < n ∧ Memory.below n m = true := by simpa [Memory.below] using h
    simp only [Memory.write]
    split
    · simp only [Memory.below, List.all_cons, Bool.and_eq_true, decide_eq_true_eq]
      exact ⟨hk, hc.1, hc.2⟩
    · split
      · simp only [Memory.below, List.all_cons, Bool.and_eq_true, decide_eq_true_eq]
        exact ⟨hk, hc.2⟩
      · simp only [Memory.below, List.all_cons, Bool.and_eq_true, decide_eq_true_eq]
        exact ⟨hc.1, ih hc.2⟩

theorem Memory.read_ofBytes_below (start j : Nat) (B : List Byte) (h : j < start) :
    (Memory.ofBytes start B).read j = none := by
  induction B generalizing start with
  | nil => rfl
  | cons b B ih =>
    rw [Memory.ofBytes, Memory.read, if_neg (by omega)]
    exact ih (start + 1) (by omega)

/-- The memory of a byte sequence reads as the sequence, and nothing past its end. -/
theorem Memory.read_ofBytes (start j : Nat) (B : List Byte) :
    (Memory.ofBytes start B).read (start + j) = B[j]? := by
  induction B generalizing start j with
  | nil => rfl
  | cons b B ih =>
    rw [Memory.ofBytes, Memory.read]
    cases j with
    | zero => simp
    | succ j =>
      rw [if_neg (by omega)]
      have := ih (start + 1) j
      rw [show start + (j + 1) = start + 1 + j by omega, this]
      simp

@[simp] theorem Memory.read_ofBytes_zero (j : Nat) (B : List Byte) : (Memory.ofBytes 0 B).read j = B[j]? := by
  simpa using Memory.read_ofBytes 0 j B

theorem Memory.risesAbove_ofBytes {l start : Nat} (B : List Byte) (h : l < start) :
    (Memory.ofBytes start B).risesAbove l = true := by
  induction B generalizing l start with
  | nil => rfl
  | cons b B ih =>
    simp only [Memory.ofBytes, Memory.risesAbove, Bool.and_eq_true, decide_eq_true_eq]
    exact ⟨h, ih (by omega)⟩

@[simp] theorem Memory.wf_ofBytes (start : Nat) (B : List Byte) : (Memory.ofBytes start B).wf = true := by
  cases B with
  | nil => rfl
  | cons b B => exact Memory.risesAbove_ofBytes B (by omega)

theorem Memory.indices_ofBytes (start : Nat) (B : List Byte) :
    (Memory.ofBytes start B).map Prod.fst = List.range' start B.length := by
  induction B generalizing start with
  | nil => rfl
  | cons b B ih => simp [Memory.ofBytes, ih, List.range'_succ]

theorem Memory.below_ofBytes {start n : Nat} (B : List Byte) (h : start + B.length ≤ n) :
    (Memory.ofBytes start B).below n = true := by
  induction B generalizing start with
  | nil => rfl
  | cons b B ih =>
    simp only [List.length_cons] at h
    simp only [Memory.ofBytes, Memory.below, List.all_cons, Bool.and_eq_true, decide_eq_true_eq]
    exact ⟨by omega, ih (by omega)⟩

/-- A byte at or beyond the capacity of a memory inside it is unspecified. -/
theorem Memory.read_of_below {m : Memory} {n j : Nat} (h : m.below n = true) (hj : n ≤ j) : m.read j = none := by
  induction m with
  | nil => rfl
  | cons c m ih =>
    obtain ⟨i, b⟩ := c
    have hc : i < n ∧ Memory.below n m = true := by simpa [Memory.below] using h
    rw [Memory.read, if_neg (by omega)]
    exact ih hc.2

/-! ### The IN_BUF window writes -/

theorem writeWindowByte_read (cap : Nat) {m : Memory} (i : Nat) (b : Byte) (j : Nat) (h : m.wf = true) :
    (writeWindowByte cap m i b).read j = if j = i ∧ i < cap then some b else m.read j := by
  unfold writeWindowByte
  split
  · simp [Memory.read_write m i b j h, *]
  · simp [*]

theorem writeWindowByte_wf (cap : Nat) {m : Memory} (i : Nat) (b : Byte) (h : m.wf = true) :
    (writeWindowByte cap m i b).wf = true := by
  unfold writeWindowByte
  split
  · exact Memory.wf_write i b h
  · exact h

theorem writeWindowByte_below {cap : Nat} {m : Memory} (i : Nat) (b : Byte) (h : m.below cap = true) :
    (writeWindowByte cap m i b).below cap = true := by
  unfold writeWindowByte
  split
  · exact Memory.below_write b h (by assumption)
  · exact h

theorem writeWindowWord_wf (cap : Nat) {m : Memory} (a : Nat) (v : Word) (h : m.wf = true) :
    (writeWindowWord cap m a v).wf = true :=
  writeWindowByte_wf _ _ _ (writeWindowByte_wf _ _ _ (writeWindowByte_wf _ _ _ (writeWindowByte_wf _ _ _ h)))

theorem writeWindowWord_below {cap : Nat} {m : Memory} (a : Nat) (v : Word) (h : m.below cap = true) :
    (writeWindowWord cap m a v).below cap = true :=
  writeWindowByte_below _ _ (writeWindowByte_below _ _ (writeWindowByte_below _ _ (writeWindowByte_below _ _ h)))

/-- A word write to the window specifies exactly its bytes below the capacity, by lanes. -/
theorem writeWindowWord_read (cap : Nat) {m : Memory} (a : Nat) (v : Word) (j : Nat) (h : m.wf = true) :
    (writeWindowWord cap m a v).read j =
      if a ≤ j ∧ j < a + 4 ∧ j < cap then some (lane v (j - a)) else m.read j := by
  have h0 := writeWindowByte_wf cap a (lane v 0) h
  have h1 := writeWindowByte_wf cap (a + 1) (lane v 1) h0
  have h2 := writeWindowByte_wf cap (a + 2) (lane v 2) h1
  unfold writeWindowWord
  rw [writeWindowByte_read cap _ _ j h2, writeWindowByte_read cap _ _ j h1, writeWindowByte_read cap _ _ j h0,
    writeWindowByte_read cap _ _ j h]
  by_cases hj : a ≤ j ∧ j < a + 4 ∧ j < cap
  · obtain ⟨k, rfl⟩ := Nat.exists_eq_add_of_le hj.1
    have hk : k < 4 := by omega
    rw [if_pos hj, Nat.add_sub_cancel_left]
    have hc : a + k < cap := hj.2.2
    interval_cases k
    · rw [if_neg (by omega), if_neg (by omega), if_neg (by omega), if_pos ⟨rfl, hc⟩]
    all_goals simp [hc]
  · rw [if_neg hj]
    split_ifs <;> first | rfl | omega

end Sys2Proof.Machine
end

