-- ==== Sys2Proof/Laws/Bus.lean ====
section
/-! SUPPORT. What an offset names, everything a bus write can do, and everything a master's turn can do, said once. -/

namespace Sys2Proof.Machine

/-! ### Offsets -/

theorem wordOffset_eq (off : Offset) : wordOffset off = off.toNat / 4 * 4 := by
  unfold wordOffset; omega

theorem wordOffset_mod (off : Offset) : wordOffset off % 4 = 0 := by
  rw [wordOffset_eq]; omega

/-- The three register files of the map, by range: the other rows of R34 lie outside these ranges. -/
theorem regionAt_ranges (o : Nat) :
    (o / 0x20 = 1 → regionAt o = .key ((o - 0x0020) / 4)) ∧ (o / 0x1000 = 1 → regionAt o = .inBuf (o - 0x1000)) ∧
      (o / 0x4000 = 1 → regionAt o = .outBuf (o - 0x4000)) := by
  unfold regionAt
  refine ⟨fun h => ?_, fun h => ?_, fun h => ?_⟩ <;> split_ifs <;> first | rfl | omega

theorem regionAt_inBuf {o : Nat} (h : 0x1000 ≤ o) (h' : o < 0x2000) : regionAt o = .inBuf (o - 0x1000) :=
  (regionAt_ranges o).2.1 (by omega)

theorem regionAt_outBuf {o : Nat} (h : 0x4000 ≤ o) (h' : o < 0x8000) : regionAt o = .outBuf (o - 0x4000) :=
  (regionAt_ranges o).2.2 (by omega)

theorem regionAt_key {o : Nat} (h : 0x0020 ≤ o) (h' : o < 0x0040) : regionAt o = .key ((o - 0x0020) / 4) :=
  (regionAt_ranges o).1 (by omega)

theorem regionAt_cmd_iff (o : Nat) : regionAt o = .cmd ↔ o = 0 := by
  unfold regionAt
  repeat' split
  all_goals simp_all

/-- An offset in the IN_BUF window names the word at the byte R83 computes. -/
theorem regionOf_inBuf {off : Offset} (h : 0x1000 ≤ off.toNat) (h' : off.toNat ≤ 0x1FFF) :
    ∃ a, a = (off.toNat - 0x1000) - (off.toNat - 0x1000) % 4 ∧ regionOf off = .inBuf a := by
  have hr : regionOf off = .inBuf (wordOffset off - 0x1000) :=
    regionAt_inBuf (by rw [wordOffset_eq]; omega) (by rw [wordOffset_eq]; omega)
  exact ⟨_, by rw [wordOffset_eq]; omega, hr⟩

/-- An offset in the OUT_BUF window names the word at the byte R85 computes. -/
theorem regionOf_outBuf {off : Offset} (h : 0x4000 ≤ off.toNat) (h' : off.toNat ≤ 0x7FFF) :
    ∃ a, a = (off.toNat - 0x4000) - (off.toNat - 0x4000) % 4 ∧ regionOf off = .outBuf a := by
  have hr : regionOf off = .outBuf (wordOffset off - 0x4000) :=
    regionAt_outBuf (by rw [wordOffset_eq]; omega) (by rw [wordOffset_eq]; omega)
  exact ⟨_, by rw [wordOffset_eq]; omega, hr⟩

/-- The offsets R86 lists are reserved. -/
theorem regionOf_reserved {off : Offset}
    (h : (0x0018 ≤ off.toNat ∧ off.toNat ≤ 0x001F) ∨ (0x0040 ≤ off.toNat ∧ off.toNat ≤ 0x0FFF) ∨
      (0x2000 ≤ off.toNat ∧ off.toNat ≤ 0x3FFF) ∨ 0x8000 ≤ off.toNat) : regionOf off = .reserved := by
  unfold regionOf regionAt
  rw [wordOffset_eq]
  repeat rw [if_neg (by omega)]

/-! ### Writes -/

theorem busWrite_of_busy {off : Offset} {v : Word} {s : State} (h : s.phase = .busy) :
    busWrite off v s = s.droppedWriteFlag := if_pos h

theorem busWrite_of_idle {off : Offset} {v : Word} {s : State} (h : s.phase = .idle) :
    busWrite off v s =
      match regionOf off with
      | .cmd => s.accept v
      | .status => s
      | .keyLen => { s with keyLen := v.setWidth 6 }
      | .inLen => { s with inLen := v.setWidth 16 }
      | .outLen => s
      | .caps => s
      | .key n => { s with key := writeKeyWord s.key n v }
      | .inBuf a => { s with inBuf := writeWindowWord s.cfg.inBufBytes s.inBuf a v }
      | .outBuf _ => s
      | .reserved => s := if_neg (by simp [h])

/-- Everything a bus write can do. -/
theorem busWrite_cases (off : Offset) (v : Word) (s : State) :
    (s.phase = .busy ∧ busWrite off v s = s.droppedWriteFlag) ∨
    (s.phase = .idle ∧
      ((wordOffset off = 0 ∧ busWrite off v s = s.accept v) ∨
       (wordOffset off ≠ 0 ∧
        (busWrite off v s = s ∨
         busWrite off v s = { s with keyLen := v.setWidth 6 } ∨
         busWrite off v s = { s with inLen := v.setWidth 16 } ∨
         (∃ n, busWrite off v s = { s with key := writeKeyWord s.key n v }) ∨
         ∃ a, busWrite off v s = { s with inBuf := writeWindowWord s.cfg.inBufBytes s.inBuf a v })))) := by
  by_cases hb : s.phase = .busy
  · exact .inl ⟨hb, busWrite_of_busy hb⟩
  · have hp : s.phase = .idle := by cases h : s.phase <;> simp_all
    refine .inr ⟨hp, ?_⟩
    rw [busWrite_of_idle hp]
    by_cases h0 : wordOffset off = 0
    · exact .inl ⟨h0, by rw [show regionOf off = .cmd from (regionAt_cmd_iff _).2 h0]⟩
    · refine .inr ⟨h0, ?_⟩
      have hne : regionOf off ≠ .cmd := fun h => h0 ((regionAt_cmd_iff _).1 h)
      cases hr : regionOf off with
      | cmd => exact absurd hr hne
      | status => exact .inl rfl
      | keyLen => exact .inr (.inl rfl)
      | inLen => exact .inr (.inr (.inl rfl))
      | outLen => exact .inl rfl
      | caps => exact .inl rfl
      | key n => exact .inr (.inr (.inr (.inl ⟨n, rfl⟩)))
      | inBuf a => exact .inr (.inr (.inr (.inr ⟨a, rfl⟩)))
      | outBuf a => exact .inl rfl
      | reserved => exact .inl rfl

/-- A bus write leaves OUT_BUF, the parameters, the masters, the schedule and the draws alone. -/
theorem busWrite_frame (off : Offset) (v : Word) (s : State) :
    (busWrite off v s).outBuf = s.outBuf ∧ (busWrite off v s).cfg = s.cfg ∧
      (busWrite off v s).masters = s.masters ∧ (busWrite off v s).schedule = s.schedule ∧
      (busWrite off v s).draw = s.draw := by
  rcases busWrite_cases off v s with ⟨-, h⟩ | ⟨-, ⟨-, h⟩ | ⟨-, h | h | h | ⟨n, h⟩ | ⟨a, h⟩⟩⟩ <;> rw [h] <;>
    exact ⟨rfl, rfl, rfl, rfl, rfl⟩

/-- A bus write keeps the memories canonical and inside their capacities. -/
theorem busWrite_memories (off : Offset) (v : Word) (s : State) (hw : s.inBuf.wf = true)
    (hb : s.inBuf.below s.cfg.inBufBytes = true) :
    (busWrite off v s).inBuf.wf = true ∧ (busWrite off v s).inBuf.below s.cfg.inBufBytes = true := by
  rcases busWrite_cases off v s with ⟨-, h⟩ | ⟨-, ⟨-, h⟩ | ⟨-, h | h | h | ⟨n, h⟩ | ⟨a, h⟩⟩⟩ <;> rw [h]
  case inr.inr.inr.inr.inr.inr => exact ⟨writeWindowWord_wf _ _ _ hw, writeWindowWord_below _ _ hb⟩
  all_goals exact ⟨hw, hb⟩

/-! ### Reads -/

theorem writeKeyWord_get (key : Vector Byte 32) (n : Nat) (v : Word) (i : Nat) (h : i < 32) :
    (writeKeyWord key n v)[i] = if i / 4 = n then lane v (i % 4) else key[i] := by
  simp [writeKeyWord]

/-! ### The masters' turns -/

/-- A master's step touches the core by nothing, by a read (the draw counter moves), or by one bus write. -/
theorem masterStep_cases (m : Master) (s : State) :
    (masterStep m s).2 = s ∨ (masterStep m s).2 = s.nextDraw ∨ ∃ off v, (masterStep m s).2 = busWrite off v s := by
  unfold masterStep
  split
  · split
    · exact .inr (.inl rfl)
    · split
      · rename_i l _
        cases l.stmt with
        | w32 off v => exact .inr (.inr ⟨off, v, rfl⟩)
        | r32 off => exact .inr (.inl rfl)
        | r32Check off v => exact .inr (.inl rfl)
        | poll off mask v => exact .inr (.inl rfl)
        | jmp label => exact .inl rfl
        | halt => exact .inl rfl
        | readOut => exact .inr (.inl rfl)
      · exact .inl rfl
  all_goals exact .inl rfl

/-- Everything a master's turn can do: to the core nothing, a read or one bus write, beside a new list of masters. -/
theorem masterTurn_cases (k : Nat) (s : State) :
    ∃ ms, masterTurn k s = s.setMasters ms ∨ masterTurn k s = s.nextDraw.setMasters ms ∨
      ∃ off v, masterTurn k s = (busWrite off v s).setMasters ms := by
  unfold masterTurn
  split
  · rename_i m _
    refine ⟨(masterStep m s).2.masters.set k (masterStep m s).1, ?_⟩
    rcases masterStep_cases m s with h | h | ⟨off, v, h⟩
    · exact .inl (by simp only [h])
    · exact .inr (.inl (by simp only [h]))
    · exact .inr (.inr ⟨off, v, by simp only [h]⟩)
  · exact ⟨s.masters, .inl rfl⟩

end Sys2Proof.Machine
end

