-- ==== Sys2Proof/Laws/Bytes.lean ====
section
/-! SUPPORT. Byte order: what a lane of a word is, that words and bytes go back and forth, and what STATUS holds. -/

namespace Sys2Proof.Machine

theorem lane_eq (v : Word) (j : Nat) : lane v j = BitVec.ofNat 8 (v.toNat / 256 ^ j) := by
  apply BitVec.eq_of_toNat_eq
  simp [lane, BitVec.extractLsb'_toNat, Nat.shiftRight_eq_div_pow, Nat.pow_mul]

/-- The lanes of `le32` are its bytes, the first the least significant. -/
theorem lane_le32 (b : Nat → Byte) (j : Nat) (hj : j < 4) : lane (le32 (b 0) (b 1) (b 2) (b 3)) j = b j := by
  apply BitVec.eq_of_getLsbD_eq
  intro i hi
  simp only [lane, le32, BitVec.getLsbD_extractLsb', BitVec.getLsbD_append]
  interval_cases j <;> interval_cases i <;> rfl

/-- A word is the `le32` of its lanes. -/
theorem le32_lanes (w : Word) : le32 (lane w 0) (lane w 1) (lane w 2) (lane w 3) = w := by
  apply BitVec.eq_of_getLsbD_eq
  intro i hi
  simp only [lane, le32, BitVec.getLsbD_extractLsb', BitVec.getLsbD_append]
  interval_cases i <;> rfl

/-- A word is the `be32` of its lanes, the most significant first. -/
theorem be32_lanes (w : Word) : be32 (lane w 3) (lane w 2) (lane w 1) (lane w 0) = w := le32_lanes w

/-- The lanes of `be32`, the last byte the least significant. -/
theorem bytesBe32_be32 (b0 b1 b2 b3 : Byte) : bytesBe32 (be32 b0 b1 b2 b3) = [b0, b1, b2, b3] := by
  have h := fun j hj => lane_le32 (fun j => if j = 0 then b3 else if j = 1 then b2 else if j = 2 then b1 else b0) j hj
  have h0 := h 0 (by decide)
  have h1 := h 1 (by decide)
  have h2 := h 2 (by decide)
  have h3 := h 3 (by decide)
  simp only [bytesBe32, be32, le32] at *
  simp_all

/-- STATUS as a number: each flag at its place. -/
theorem statusBits_toNat (e : BitVec 4) (wd er dn bu : Bool) :
    ((e.setWidth 32 <<< 8) ||| (flagBit wd <<< 3) ||| (flagBit er <<< 2) ||| (flagBit dn <<< 1) |||
      flagBit bu).toNat = e.toNat * 256 + wd.toNat * 8 + er.toNat * 4 + dn.toNat * 2 + bu.toNat := by
  revert e wd er dn bu
  decide

/-- The word at KEYn names KEYn. -/
theorem regionOf_key {n : Nat} (h : n < 8) : regionOf (BitVec.ofNat 16 (0x0020 + 4 * n)) = .key n := by
  have : ∀ n < 8, regionOf (BitVec.ofNat 16 (0x0020 + 4 * n)) = .key n := by decide
  exact this n h

/-- Decoding the bytes of a word is decoding the word. -/
theorem decodeBytes_lanes (w : Word) (rest : List Byte) :
    decodeBytes (lane w 0 :: lane w 1 :: lane w 2 :: lane w 3 :: rest) = .ok (decode w, rest) := by
  simp only [decodeBytes, le32_lanes]

end Sys2Proof.Machine
end

