-- ==== Sys2Proof/Laws/Exec.lean ====
section
/-! SUPPORT. What a command can do: its meaning is one completion, successful or failed; and what a step can do. -/

namespace Sys2Proof.Machine

/-- Everything a completion can do. -/
theorem complete_cases (r : Except CommandError (List Byte)) (s : State) :
    (∃ T, r = .ok T ∧ complete r s = .next (s.succeed T)) ∨
    (∃ e, r = .error e ∧ complete r s = .next (s.raise e)) := by
  cases r with
  | ok T => exact .inl ⟨T, rfl, rfl⟩
  | error e => exact .inr ⟨e, rfl, rfl⟩

/-- A successful completion, for a result whose length OUT_LEN can hold (40_commands.md R153). -/
theorem succeedsWith_succeed (s : State) (T : List Byte) (h : T.length < 65536) : succeedsWith s (s.succeed T) T :=
  ⟨rfl, by simp [State.succeed]; omega, fun a => by simp [State.succeed]⟩

/-- A failed completion (40_commands.md R153, 60_exceptions.md R410). -/
theorem failsWith_raise (s : State) (e : CommandError) : failsWith s (s.raise e) e.code := ⟨rfl, fun _ => rfl⟩

/-- The codes are 1 to 6 (R400). -/
theorem code_range (e : CommandError) : 1 ≤ e.code.toNat ∧ e.code.toNat ≤ 6 := by cases e <;> decide

/-- What a command's `Run` returns (40_commands.md R154), by command. -/
def runOf : Instr → State → Except CommandError (List Byte)
  | .encAes, s => runEncrypt .aes s
  | .encSm4, s => runEncrypt .sm4 s
  | .decAes, s => runDecrypt .aes s
  | .decSm4, s => runDecrypt .sm4 s
  | .illegal _, _ => .error .illegalCommand

theorem exec_eq_complete (i : Instr) (s : State) : exec i s = complete (runOf i s) s := by
  cases i <;> rfl

/-- Everything a command can do. -/
theorem exec_cases (i : Instr) (s : State) :
    (∃ T, runOf i s = .ok T ∧ exec i s = .next (s.succeed T)) ∨
    (∃ e, runOf i s = .error e ∧ exec i s = .next (s.raise e)) := by
  rw [exec_eq_complete]
  exact complete_cases _ _

/-- The turn that comes next, and what taking it off the schedule leaves: everything but the schedule. -/
theorem nextTurn_frame (s : State) : ∃ ts, (nextTurn s).2 = s.setSchedule ts := by
  unfold nextTurn
  split
  · exact ⟨_, rfl⟩
  · exact ⟨s.schedule, rfl⟩

/-- Everything a step can do. -/
theorem step_cases (s : State) : ∃ ts,
    (s.phase = .busy ∧ step s = exec (decode s.curCmd) (s.setSchedule ts)) ∨
    (s.phase = .idle ∧ step s = .next (s.setSchedule ts)) ∨
    (∃ k, step s = .next (masterTurn k (s.setSchedule ts))) ∨
    step s = .next ((s.setSchedule ts).assertReset) := by
  obtain ⟨ts, h⟩ := nextTurn_frame s
  refine ⟨ts, ?_⟩
  unfold step
  rw [h]
  split
  · cases hp : s.phase with
    | busy => exact .inl ⟨rfl, by simp [coreTurn, hp]⟩
    | idle => exact .inr (.inl ⟨rfl, by simp [coreTurn, hp]⟩)
  · exact .inr (.inr (.inl ⟨_, rfl⟩))
  · exact .inr (.inr (.inr rfl))

end Sys2Proof.Machine
end

