-- ==== Sys2Proof/Laws/Units.lean ====
section
/-! SUPPORT. The units: the lengths of what they give, and what each small function of them does. -/

namespace Sys2Proof.Machine

@[simp] theorem slice_length (B : List Byte) (i j : Nat) : (slice B i j).length = min (j - i) (B.length - i) := by
  simp [slice]

@[simp] theorem slice_zero (B : List Byte) (n : Nat) : slice B 0 n = B.take n := by simp [slice]

@[simp] theorem xorBytes_length (A B : List Byte) : (xorBytes A B).length = min A.length B.length := by
  simp [xorBytes]

theorem byteAt_eq (B : List Byte) (i : Nat) (h : i < B.length) : byteAt B i = B[i] := by
  simp [byteAt, h]

/-- `⊕` with the same sequence twice gives the sequence back. -/
theorem xorBytes_cancel (A B : List Byte) (h : A.length = B.length) : xorBytes (xorBytes A B) B = A := by
  unfold xorBytes
  induction A generalizing B with
  | nil => simp
  | cons a A ih =>
    cases B with
    | nil => simp at h
    | cons b B =>
      simp only [List.zipWith_cons_cons, List.cons.injEq]
      exact ⟨by simp, ih B (by simpa using h)⟩

/-! ### Block lengths -/

@[simp] theorem storeBlock_length (s : AesState) : (storeBlock s).length = 16 := rfl

@[simp] theorem sm4Store_length (s : Sm4State) : (sm4Store s).length = 16 := rfl

@[simp] theorem aesEncrypt_length (K B : List Byte) : (aesEncrypt K B).length = 16 := rfl

@[simp] theorem aesDecrypt_length (K B : List Byte) : (aesDecrypt K B).length = 16 := rfl

@[simp] theorem sm4Encrypt_length (K B : List Byte) : (sm4Encrypt K B).length = 16 := rfl

@[simp] theorem sm4Decrypt_length (K B : List Byte) : (sm4Decrypt K B).length = 16 := rfl

@[simp] theorem blockEncrypt_length (alg : Alg) (K B : List Byte) : (blockEncrypt alg K B).length = 16 := by
  cases alg <;> rfl

@[simp] theorem blockDecrypt_length (alg : Alg) (K B : List Byte) : (blockDecrypt alg K B).length = 16 := by
  cases alg <;> rfl

@[simp] theorem cbcEncryptLoop_length (alg : Alg) (K : List Byte) (n : Nat) (cv M : List Byte) :
    (cbcEncryptLoop alg K n cv M).length = 16 * n := by
  induction n generalizing cv M with
  | zero => rfl
  | succ n ih => simp only [cbcEncryptLoop, List.length_append, blockEncrypt_length, ih]; omega

theorem cbcDecryptLoop_length_le (alg : Alg) (K : List Byte) (n : Nat) (cv C : List Byte) :
    (cbcDecryptLoop alg K n cv C).length ≤ 16 * n := by
  induction n generalizing cv C with
  | zero => simp [cbcDecryptLoop]
  | succ n ih =>
    have := ih (C.take 16) (C.drop 16)
    simp only [cbcDecryptLoop, List.length_append, xorBytes_length, blockDecrypt_length]
    omega

theorem cbcDecryptLoop_length (alg : Alg) (K : List Byte) (n : Nat) (cv C : List Byte) (hcv : cv.length = 16)
    (hC : 16 * n ≤ C.length) : (cbcDecryptLoop alg K n cv C).length = 16 * n := by
  induction n generalizing cv C with
  | zero => rfl
  | succ n ih =>
    have := ih (C.take 16) (C.drop 16) (by simp; omega) (by simp; omega)
    simp only [cbcDecryptLoop, List.length_append, xorBytes_length, blockDecrypt_length, this]
    omega

@[simp] theorem sm4Iv_length : sm4Iv.length = 16 := rfl

theorem deriveIv_length (alg : Alg) (K : List Byte) (h : alg = .aes → 16 ≤ K.length) :
    (deriveIv alg K).length = 16 := by
  cases alg with
  | aes => have := h rfl; simp only [deriveIv, slice_zero, List.length_take]; omega
  | sm4 => rfl

/-! ### Padding -/

theorem padCount_pos (n : Nat) : 1 ≤ padCount n := by unfold padCount; omega

theorem padCount_le (n : Nat) : padCount n ≤ 16 := by unfold padCount; omega

@[simp] theorem pkcs7Pad_length (P : List Byte) : (pkcs7Pad P).length = P.length + padCount P.length := by
  simp [pkcs7Pad]

/-! ### Base64 lengths -/

theorem base64Encode_length (B : List Byte) : (base64Encode B).length = 4 * ((B.length + 2) / 3) := by
  fun_induction base64Encode B with
  | case1 => rfl
  | case2 => simp
  | case3 => simp
  | case4 b0 b1 b2 rest c ih => simp only [List.length_cons, ih]; omega

theorem groupBytes_length_le (c0 c1 c2 c3 : Byte) : (groupBytes c0 c1 c2 c3).length ≤ 3 := by
  unfold groupBytes
  simp only [List.length_take, List.length_cons, List.length_nil]
  omega

/-- A decoded text is at most three quarters of the text. -/
theorem decodeGroups_length_le (T : List Byte) : 4 * (decodeGroups T).length ≤ 3 * T.length := by
  fun_induction decodeGroups T with
  | case1 c0 c1 c2 c3 rest ih =>
    have := groupBytes_length_le c0 c1 c2 c3
    simp only [List.length_append, List.length_cons]
    omega
  | case2 => simp

/-! ### What the commands read -/

@[simp] theorem inputBytes_length (s : State) : s.inputBytes.length = s.inLen.toNat := by
  simp [State.inputBytes]

theorem keyBytes_length (s : State) : s.keyBytes.length = min s.keyLen.toNat 32 := by
  simp [State.keyBytes]

theorem keyLenOk_iff (alg : Alg) (n : Nat) :
    keyLenOk alg n = true ↔ n = 16 ∨ (alg = .aes ∧ (n = 24 ∨ n = 32)) := by
  cases alg <;> simp [keyLenOk, or_assoc]

/-- A successful decryption gives less than its text. -/
theorem runDecrypt_length {alg : Alg} {s : State} {T : List Byte} (h : runDecrypt alg s = .ok T) :
    T.length < s.inLen.toNat ∧ s.inLen.toNat ≤ s.cfg.inBufBytes := by
  unfold runDecrypt withinInputCapacity at h
  split at h
  · cases h
  · refine ⟨?_, by omega⟩
    unfold decrypt base64Decode at h
    split at h
    · cases h
    · rename_i C hC
      split at hC
      · cases hC
        split at h
        · cases h
        · split at h
          · cases h
          · have h4 := decodeGroups_length_le s.inputBytes
            have h5 := cbcDecryptLoop_length_le alg s.keyBytes ((decodeGroups s.inputBytes).length / 16)
              (deriveIv alg s.keyBytes) (decodeGroups s.inputBytes)
            rename_i hne _
            unfold pkcs7Unpad at h
            simp only at h
            split at h
            · cases h
            · cases h
              simp only [List.length_take, decryptedBuffer, cbcDecrypt]
              simp only [inputBytes_length] at h4
              omega
      · cases hC

/-- A successful encryption gives the framed length, within the output buffer. -/
theorem runEncrypt_length {alg : Alg} {s : State} {T : List Byte} (h : runEncrypt alg s = .ok T) :
    T.length = framedLen (paddedLen s.inLen.toNat) ∧ T.length ≤ s.cfg.outBufBytes ∧
      s.inLen.toNat ≤ s.cfg.inBufBytes := by
  unfold runEncrypt withinInputCapacity at h
  split at h
  · cases h
  · unfold encrypt at h
    split at h
    · cases h
    · split at h
      · cases h
      · cases h
        have hl : (rawCiphertext alg s.keyBytes s.inputBytes).length = paddedLen s.inLen.toNat := by
          simp only [rawCiphertext, cbcEncrypt, cbcEncryptLoop_length, pkcs7Pad_length, inputBytes_length, paddedLen,
            padCount]
          omega
        rw [base64Encode_length, hl]
        unfold framedLen at *
        omega

/-- A result of any command fits OUT_BUF (40_commands.md R157). -/
theorem runOf_length {i : Instr} {s : State} {T : List Byte} (hc : s.cfg.legal) (h : runOf i s = .ok T) :
    T.length ≤ s.cfg.outBufBytes := by
  have := hc.2.2.2.2.1
  cases i <;> simp only [runOf] at h
  · exact (runEncrypt_length h).2.1
  · exact (runEncrypt_length h).2.1
  · have := runDecrypt_length h; omega
  · have := runDecrypt_length h; omega
  · cases h

end Sys2Proof.Machine
end

