-- ==== Sys2Proof/Laws/Ciphers.lean ====
section
/-! SUPPORT. The ciphers' round transformations: blocks load and store, each AES transformation but MixColumns is undone
by its inverse, and an SM4 round is undone by itself between reversals. -/

namespace Sys2Proof.Machine

/-! ### AES -/

@[simp] theorem loadBlock_storeBlock (s : AesState) : loadBlock (storeBlock s) = s := rfl

/-- A block of sixteen bytes is what its load stores. -/
theorem storeBlock_loadBlock (B : List Byte) (h : B.length = 16) : storeBlock (loadBlock B) = B := by
  apply List.ext_getElem
  · rw [storeBlock_length, h]
  · intro i hi hi'
    rw [← byteAt_eq _ _ hi, ← byteAt_eq _ _ hi']
    have hi16 : i < 16 := by omega
    interval_cases i <;> rfl

@[simp] theorem invSbox_sbox : ∀ a : Byte, invSbox (sbox a) = a := by decide +kernel

@[simp] theorem invShiftRows_shiftRows (s : AesState) : invShiftRows (shiftRows s) = s := rfl

@[simp] theorem invSubBytes_subBytes (s : AesState) : invSubBytes (subBytes s) = s := by
  simp [invSubBytes, subBytes, mapColumns, mapWord]

@[simp] theorem xorWord_cancel (a b : AesWord) : xorWord (xorWord a b) b = a := by
  simp [xorWord]

/-- Adding a round key twice is nothing (43_aes.md R260). -/
@[simp] theorem addRoundKey_addRoundKey (w : List AesWord) (rnd : Nat) (s : AesState) :
    addRoundKey w rnd (addRoundKey w rnd s) = s := by
  simp [addRoundKey]

theorem gfMulBits_zero (n : Nat) (a : Byte) : gfMulBits n a 0 = 0 := by
  induction n generalizing a with
  | zero => rfl
  | succ n ih =>
    rw [gfMulBits, show xtime 0 = 0 from rfl, ih]
    simp

theorem xtime_xor : ∀ b c : Byte, xtime (b ^^^ c) = xtime b ^^^ xtime c := by
  intro b c
  have hk : ∀ x y k : Byte, x ^^^ y = (x ^^^ k) ^^^ (y ^^^ k) := by
    intro x y k
    rw [show (x ^^^ k) ^^^ (y ^^^ k) = x ^^^ y ^^^ (k ^^^ k) by ac_rfl, BitVec.xor_self, BitVec.xor_zero]
  unfold xtime
  rw [BitVec.getLsbD_xor, BitVec.shiftLeft_xor_distrib]
  cases b.getLsbD 7 <;> cases c.getLsbD 7
  · rfl
  · simp only [Bool.false_xor, Bool.false_eq_true, if_false, if_true]; ac_rfl
  · simp only [Bool.xor_false, Bool.false_eq_true, if_false, if_true]; ac_rfl
  · simpa using hk _ _ _

/-! ### SM4 -/

@[simp] theorem sm4Load_sm4Store (s : Sm4State) : sm4Load (sm4Store s) = s := by
  have h : sm4Load (sm4Store s) = ⟨be32 (lane s.x0 3) (lane s.x0 2) (lane s.x0 1) (lane s.x0 0),
      be32 (lane s.x1 3) (lane s.x1 2) (lane s.x1 1) (lane s.x1 0),
      be32 (lane s.x2 3) (lane s.x2 2) (lane s.x2 1) (lane s.x2 0),
      be32 (lane s.x3 3) (lane s.x3 2) (lane s.x3 1) (lane s.x3 0)⟩ := rfl
  rw [h]
  simp only [be32_lanes]

/-- A block of sixteen bytes is what its load stores. -/
theorem sm4Store_sm4Load (B : List Byte) (h : B.length = 16) : sm4Store (sm4Load B) = B := by
  have hs : sm4Store (sm4Load B) = storeBlock (loadBlock B) := by
    simp only [sm4Store, sm4Load, sm4WordAt, bytesBe32_be32]
    rfl
  rw [hs, storeBlock_loadBlock B h]

@[simp] theorem sm4Reverse_sm4Reverse (s : Sm4State) : sm4Reverse (sm4Reverse s) = s := rfl

/-- A round, reversed, under the same key, is undone by a round (44_sm4.md R310). -/
theorem sm4Round_reverse (s : Sm4State) (rk : Word) :
    sm4Round (sm4Reverse (sm4Round s rk)) rk = sm4Reverse s := by
  have hx : s.x3 ^^^ s.x2 ^^^ s.x1 ^^^ rk = s.x1 ^^^ s.x2 ^^^ s.x3 ^^^ rk := by ac_rfl
  simp only [sm4Round, sm4Reverse, sm4F, hx]
  rw [BitVec.xor_assoc s.x0, BitVec.xor_self, BitVec.xor_zero]

/-- The key schedule gives 32 round keys (44_sm4.md R307). -/
theorem sm4KeyLoop_length (n i : Nat) (k : Sm4State) : (sm4KeyLoop n i k).length = n := by
  induction n generalizing i k with
  | zero => rfl
  | succ n ih => simp [sm4KeyLoop, ih]

end Sys2Proof.Machine
end

