-- ==== Sys2Proof/Laws/PerInstr.lean ====
section
/-! SUPPORT. A statement about the commands as syntax, one lemma a constructor: the word of a well-formed command is one of
the four legal words exactly when the command is not ILLEGAL (30_encoding.md R125, R126). -/

namespace Sys2Proof.Laws.EncodedWord

/-- Whether a command is the table's row ILLEGAL. -/
def isIllegal : Instr → Bool
  | .encAes => false
  | .encSm4 => false
  | .decAes => false
  | .decSm4 => false
  | .illegal _ => true

/-- The word of a well-formed command is legal exactly when the command is not ILLEGAL. -/
def Statement (i : Instr) : Prop := i.wellFormed = true → legalWords.contains (encode i) = !isIllegal i

theorem encAes : Statement .encAes := fun _ => by decide

theorem encSm4 : Statement .encSm4 := fun _ => by decide

theorem decAes : Statement .decAes := fun _ => by decide

theorem decSm4 : Statement .decSm4 := fun _ => by decide

theorem illegal (w : Word) : Statement (.illegal w) := by
  intro h
  simpa [Instr.wellFormed, encode, isIllegal] using h

end Sys2Proof.Laws.EncodedWord
end

