-- ==== Sys2Proof/Tests/Slice0.lean ====
section
/-! SUPPORT. Tests. Every expected result is the spec's: the source is named in the docstring. First the tests
proper, then for each obligation with hypotheses a witness that its hypotheses can hold together. -/

namespace Sys2Proof.Tests

open Sys2Proof Sys2Proof.Machine

/-! ### Helpers -/

/-- Whether an outcome is a next state that passes a check. -/
def passes (o : Host.Outcome State Fault Refusal) (p : State → Bool) : Bool :=
  match o with
  | .next t => p t
  | .fault _ => false
  | .refused _ => false

theorem next_of_passes {o : Host.Outcome State Fault Refusal} {p : State → Bool} (h : passes o p = true) :
    ∃ t, o = .next t ∧ p t = true := by
  cases o with
  | next t => exact ⟨t, rfl, h⟩
  | fault r => cases h
  | refused r => cases h

/-- Key bytes as the KEY registers hold them, the rest 0. -/
def keyOf (K : List Byte) : Vector Byte 32 := Vector.ofFn fun i => byteAt K i.val

/-- A state with a key and an input in place. -/
def placed (cfg : Config) (K P : List Byte) : State :=
  { State.reset with
    cfg := cfg, key := keyOf K, keyLen := BitVec.ofNat 6 K.length, inLen := BitVec.ofNat 16 P.length,
    inBuf := Memory.ofBytes 0 P }

/-- The smallest input buffer R7 allows, beside an output buffer of 48 bytes. -/
def smallConfig : Config := { inBufBytes := 24, outBufBytes := 48, base := 0 }

/-- The command gives a success with the bytes `T` (R153). -/
def gives (i : Instr) (s : State) (T : List Byte) : Bool :=
  passes (exec i s) fun t =>
    t.outBuf == Memory.ofBytes 0 T && t.outLen.toNat == T.length && !t.error && t.errCode == 0 && t.done &&
      t.phase == .idle

/-- The command fails with the code `c` (R410). -/
def failsWithCode (i : Instr) (s : State) (c : BitVec 4) : Bool :=
  passes (exec i s) fun t =>
    t.outBuf == [] && t.outLen == 0 && t.error && t.errCode == c && t.done && t.phase == .idle

/-- "0123456789abcdef" -/
def k16 : List Byte := [0x30, 0x31, 0x32, 0x33, 0x34, 0x35, 0x36, 0x37, 0x38, 0x39, 0x61, 0x62, 0x63, 0x64, 0x65, 0x66]

/-- "0123456789abcdef01234567" -/
def k24 : List Byte := k16 ++ k16.take 8

/-- "0123456789abcdef0123456789abcdef" -/
def k32 : List Byte := k16 ++ k16

/-- "hello" -/
def hello : List Byte := [0x68, 0x65, 0x6c, 0x6c, 0x6f]

/-- "test1234" -/
def test1234 : List Byte := [0x74, 0x65, 0x73, 0x74, 0x31, 0x32, 0x33, 0x34]

/-- `MOfLtxzZ0YgS4+5cPylFYw==` (V7.0a) -/
def helloText : List Byte :=
  [0x4d, 0x4f, 0x66, 0x4c, 0x74, 0x78, 0x7a, 0x5a, 0x30, 0x59, 0x67, 0x53,
   0x34, 0x2b, 0x35, 0x63, 0x50, 0x79, 0x6c, 0x46, 0x59, 0x77, 0x3d, 0x3d]

/-- `R01r2vf2hOcV/aP4la42mQ==` (V7.0d) -/
def test1234Text : List Byte :=
  [0x52, 0x30, 0x31, 0x72, 0x32, 0x76, 0x66, 0x32, 0x68, 0x4f, 0x63, 0x56,
   0x2f, 0x61, 0x50, 0x34, 0x6c, 0x61, 0x34, 0x32, 0x6d, 0x51, 0x3d, 0x3d]

/-! ### Well-formedness: the ill-formed terms each check refuses -/

/-- R126: a legal word is not ILLEGAL. -/
theorem test_wellFormed_refuses_legal_words :
    (Instr.illegal 0x00000001).wellFormed = false ∧ (Instr.illegal 0x00000011).wellFormed = false ∧
    (Instr.illegal 0x00000002).wellFormed = false ∧ (Instr.illegal 0x00000012).wellFormed = false := by decide

theorem test_wellFormed_admits : Instr.encAes.wellFormed = true ∧ Instr.encSm4.wellFormed = true ∧
    Instr.decAes.wellFormed = true ∧ Instr.decSm4.wellFormed = true ∧
    (Instr.illegal 0x00000000).wellFormed = true := by decide

/-- 00_scope.md R7: each bound on the parameters refuses a value one step outside it. -/
theorem test_config_bounds : Config.standard.legal ∧ smallConfig.legal ∧
    ¬ (Config.mk 20 48 0).legal ∧ ¬ (Config.mk 26 48 0).legal ∧ ¬ (Config.mk 4100 8192 0).legal ∧
    ¬ (Config.mk 48 44 0).legal ∧ ¬ (Config.mk 24 50 0).legal ∧ ¬ (Config.mk 24 16388 0).legal := by decide

/-- 30_encoding.md R128, R129: a jump to no line's label, and a label that stands twice, are refused. -/
theorem test_program_wellFormed : programWellFormed [⟨none, .jmp 0⟩] = false ∧
    programWellFormed [⟨some 0, .halt⟩, ⟨some 0, .halt⟩] = false ∧
    programWellFormed [⟨some 0, .jmp 0⟩] = true := by decide

/-- 10_state.md R48: indices must rise strictly, and stay below the capacity. -/
theorem test_memory_wf_refuses : Memory.wf [(1, 0), (0, 0)] = false ∧ Memory.wf [(1, 0), (1, 0)] = false ∧
    Memory.below 4 [(4, 0)] = false ∧ Memory.wf [(0, 0), (7, 0)] = true := by decide

/-! ### Decoding: words written out bit by bit from R121 and R125 (RSVD 24 bits, ALG 4, OP 4) -/

theorem test_decode_encAes : decode 0b000000000000000000000000_0000_0001 = .encAes := by decide
theorem test_decode_encSm4 : decode 0b000000000000000000000000_0001_0001 = .encSm4 := by decide
theorem test_decode_decAes : decode 0b000000000000000000000000_0000_0010 = .decAes := by decide
theorem test_decode_decSm4 : decode 0b000000000000000000000000_0001_0010 = .decSm4 := by decide

/-- V9's reserved words: a reserved OP, a reserved ALG, each end of RSVD (R122 to R124). -/
theorem test_decode_illegal : decode 0b000000000000000000000000_0000_0011 = .illegal 0x3 ∧
    decode 0b000000000000000000000000_0010_0001 = .illegal 0x21 ∧
    decode 0b000000000000000000000001_0000_0001 = .illegal 0x101 ∧
    decode 0b100000000000000000000000_0001_0010 = .illegal 0x80000012 := by decide

/-- R120: a command word is four bytes, the least significant first; fewer are refused by name. -/
theorem test_decodeBytes : decodeBytes [0x11, 0, 0, 0, 0xAA] = .ok (.encSm4, [0xAA]) ∧
    decodeBytes [0x11, 0, 0] = .error (.truncated 3) := by decide

theorem test_decodeTableWord : decodeTableWord 32 0x12 = some .decSm4 ∧ decodeTableWord 8 0x101 = some .encAes ∧
    decodeTableWord 40 0x1 = none := by decide

/-! ### Units (95_test_vectors.md sections 2 to 6) -/

/-- V4.1 to V4.3. -/
theorem test_aesEncrypt_fips :
    aesEncrypt (List.ofFn fun i : Fin 16 => BitVec.ofNat 8 i) (List.ofFn fun i : Fin 16 => BitVec.ofNat 8 (i * 0x11)) =
      [0x69, 0xc4, 0xe0, 0xd8, 0x6a, 0x7b, 0x04, 0x30, 0xd8, 0xcd, 0xb7, 0x80, 0x70, 0xb4, 0xc5, 0x5a] ∧
    aesEncrypt (List.ofFn fun i : Fin 24 => BitVec.ofNat 8 i) (List.ofFn fun i : Fin 16 => BitVec.ofNat 8 (i * 0x11)) =
      [0xdd, 0xa9, 0x7c, 0xa4, 0x86, 0x4c, 0xdf, 0xe0, 0x6e, 0xaf, 0x70, 0xa0, 0xec, 0x0d, 0x71, 0x91] ∧
    aesEncrypt (List.ofFn fun i : Fin 32 => BitVec.ofNat 8 i) (List.ofFn fun i : Fin 16 => BitVec.ofNat 8 (i * 0x11)) =
      [0x8e, 0xa2, 0xb7, 0xca, 0x51, 0x67, 0x45, 0xbf, 0xea, 0xfc, 0x49, 0x90, 0x4b, 0x49, 0x60, 0x89] := by
  decide +kernel

/-- V4.4. -/
theorem test_aesDecrypt_fips :
    aesDecrypt (List.ofFn fun i : Fin 32 => BitVec.ofNat 8 i)
      [0x8e, 0xa2, 0xb7, 0xca, 0x51, 0x67, 0x45, 0xbf, 0xea, 0xfc, 0x49, 0x90, 0x4b, 0x49, 0x60, 0x89] =
      (List.ofFn fun i : Fin 16 => BitVec.ofNat 8 (i * 0x11)) := by decide +kernel

/-- V4.6, V4.7: the last words of the key schedules. -/
theorem test_keyExpansion_fips :
    wordAt (keyExpansion [0x8e, 0x73, 0xb0, 0xf7, 0xda, 0x0e, 0x64, 0x52, 0xc8, 0x10, 0xf3, 0x2b,
      0x80, 0x90, 0x79, 0xe5, 0x62, 0xf8, 0xea, 0xd2, 0x52, 0x2c, 0x6b, 0x7b]) 51 = ⟨0x01, 0x00, 0x22, 0x02⟩ ∧
    wordAt (keyExpansion ([0x60, 0x3d, 0xeb, 0x10, 0x15, 0xca, 0x71, 0xbe, 0x2b, 0x73, 0xae, 0xf0, 0x85, 0x7d, 0x77, 0x81] ++
      [0x1f, 0x35, 0x2c, 0x07, 0x3b, 0x61, 0x08, 0xd7, 0x2d, 0x98, 0x10, 0xa3, 0x09, 0x14, 0xdf, 0xf4])) 59 =
      ⟨0x70, 0x6c, 0x63, 0x1e⟩ := by decide +kernel

/-- V4.9. -/
theorem test_mixColumn : mixColumn ⟨0xdb, 0x13, 0x53, 0x45⟩ = ⟨0x8e, 0x4d, 0xa1, 0xbc⟩ ∧
    invMixColumn ⟨0x8e, 0x4d, 0xa1, 0xbc⟩ = ⟨0xdb, 0x13, 0x53, 0x45⟩ := by decide +kernel

/-- V4.10, V4.11. -/
theorem test_gf_and_sbox : gfMul 0x57 0x83 = 0xc1 ∧ gfMul 0x57 0x13 = 0xfe ∧ xtime 0x57 = 0xae ∧ sbox 0x00 = 0x63 ∧
    sbox 0x53 = 0xed ∧ invSbox 0xed = 0x53 ∧ invSbox 0x63 = 0x00 := by decide +kernel

/-- 43_aes.md R265: the round constants the rule lists, the last one after a wrap. -/
theorem test_rcon : rc 1 = 0x01 ∧ rc 8 = 0x80 ∧ rc 9 = 0x1b ∧ rc 10 = 0x36 := by decide

/-- V5.1's key and block. -/
def sm4Block : List Byte :=
  [0x01, 0x23, 0x45, 0x67, 0x89, 0xab, 0xcd, 0xef, 0xfe, 0xdc, 0xba, 0x98, 0x76, 0x54, 0x32, 0x10]

/-- V5.1 to V5.4. -/
theorem test_sm4_vectors : sm4Encrypt sm4Block sm4Block =
      [0x68, 0x1e, 0xdf, 0x34, 0xd2, 0x06, 0x96, 0x5e, 0x86, 0xb3, 0xe9, 0x4f, 0x53, 0x6e, 0x42, 0x46] ∧
    sm4Decrypt sm4Block [0x68, 0x1e, 0xdf, 0x34, 0xd2, 0x06, 0x96, 0x5e,
      0x86, 0xb3, 0xe9, 0x4f, 0x53, 0x6e, 0x42, 0x46] = sm4Block ∧
    (sm4KeySchedule sm4Block).getD 0 0 = 0xf12186f9 ∧ (sm4KeySchedule sm4Block).getD 31 0 = 0x9124a012 ∧
    sm4Sbox 0x00 = 0xd6 ∧ sm4Sbox 0xff = 0x48 := by decide +kernel

/-- 44_sm4.md R306: the first and the last constant. -/
theorem test_sm4CK : sm4CK 0 = 0x00070e15 ∧ sm4CK 31 = 0x646b7279 := by decide

/-- V6.2, V6.3, V6.7. -/
theorem test_base64Encode : base64Encode [0x66] = [0x5a, 0x67, 0x3d, 0x3d] ∧
    base64Encode [0x66, 0x6f] = [0x5a, 0x6d, 0x38, 0x3d] ∧
    base64Encode [0x66, 0x6f, 0x6f, 0x62, 0x61, 0x72] = [0x5a, 0x6d, 0x39, 0x76, 0x59, 0x6d, 0x46, 0x79] := by decide

/-- V6.9 to V6.11: pad bits are discarded. -/
theorem test_base64Decode : base64Decode [0x5a, 0x68, 0x3d, 0x3d] = .ok [0x66] ∧
    base64Decode [0x5a, 0x6d, 0x39, 0x3d] = .ok [0x66, 0x6f] ∧
    base64Decode [0x5a, 0x6d, 0x39, 0x76, 0x59, 0x67, 0x3d, 0x3d] = .ok [0x66, 0x6f, 0x6f, 0x62] := by decide

/-- V6.12 to V6.17. -/
theorem test_base64_refuses : base64Valid [0x5a, 0x67] = false ∧ base64Valid [0x5a, 0x3d, 0x3d, 0x3d] = false ∧
    base64Valid [0x5a, 0x6d, 0x39, 0x76, 0x0d, 0x0a] = false ∧ base64Valid [0x5a, 0x6d, 0x39, 0x76, 0x2d, 0x5f, 0x3d, 0x3d] = false ∧
    base64Valid [0x41, 0x42, 0x3d, 0x43] = false ∧ base64Valid [0x3d, 0x41, 0x41, 0x41] = false ∧
    base64Valid [0x41, 0x41, 0x3d, 0x3d, 0x41, 0x41, 0x41, 0x41] = false := by decide

/-- V2.1, V2.5, V2.7: the pad bytes. -/
theorem test_pkcs7Pad : pkcs7Pad [] = List.replicate 16 0x10 ∧
    pkcs7Pad (List.replicate 15 0x41) = List.replicate 15 0x41 ++ [0x01] ∧
    pkcs7Pad (List.replicate 17 0x41) = List.replicate 17 0x41 ++ List.replicate 15 0x0f := by decide

/-- V2.9, V2.10, V2.13: only the last byte counts, from 1 to 16. -/
theorem test_pkcs7Unpad : pkcs7Unpad (List.replicate 15 0x41 ++ [0x00]) = .error .invalidPadding ∧
    pkcs7Unpad (List.replicate 15 0x42 ++ [0x10]) = .ok [] ∧
    pkcs7Unpad (List.replicate 31 0x41 ++ [0x11]) = .error .invalidPadding := by decide

/-- V3.2: the second block is chained to the first. -/
theorem test_cbcEncrypt : (cbcEncrypt .aes k16 k16 (k16 ++ List.replicate 16 0x10)).take 20 =
    [0x0b, 0x9b, 0x15, 0xda, 0x4b, 0x44, 0xa0, 0xf5, 0x15, 0x1d, 0xcf, 0xc4, 0xc0, 0x1f, 0x35, 0xd5, 0xbf, 0x31, 0xb9, 0x19] := by
  decide +kernel

/-! ### Commands (sections 7 to 9) -/

/-- V7.0a. -/
theorem test_encAes_hello : gives .encAes (placed Config.standard k16 hello) helloText = true := by decide +kernel

/-- V7.5's key length (R156): 25 bytes are no AES key. -/
theorem test_encAes_keyLength :
    failsWithCode .encAes (placed Config.standard (k24 ++ [0x38]) hello) 1 = true := by decide +kernel

/-- V7.0d. -/
theorem test_encSm4_test1234 : gives .encSm4 (placed Config.standard k16 test1234) test1234Text = true := by
  decide +kernel

/-- V7.11: 24 bytes are an AES key but no SM4 key. -/
theorem test_encSm4_keyLength : failsWithCode .encSm4 (placed Config.standard k24 hello) 1 = true := by decide +kernel

/-- V8.1. -/
theorem test_decAes_hello : gives .decAes (placed Config.standard k16 helloText) hello = true := by decide +kernel

/-- V8.20: the text is checked before the key, the key before the padding. -/
theorem test_decAes_keyLength :
    failsWithCode .decAes (placed Config.standard (k16.take 15) helloText) 1 = true := by decide +kernel

/-- V8.3. -/
theorem test_decSm4_test1234 : gives .decSm4 (placed Config.standard k16 test1234Text) test1234 = true := by
  decide +kernel

/-- V8.22: an AES text under SM4 ends in a byte outside 1 to 16. -/
theorem test_decSm4_wrongCipher : failsWithCode .decSm4 (placed Config.standard k16 helloText) 4 = true := by
  decide +kernel

/-- R180: STATUS reads 0x00000506 after an illegal word. -/
theorem test_illegal_status : passes (exec (.illegal 0x3) (placed Config.standard k16 hello))
    (fun t => decide (busReadWord 0x0004 t = 0x00000506)) = true := by decide +kernel

/-! ### Steps and the bus (section 10) -/

/-- The state after reset, with a word placed, runs it in the very next step. -/
theorem test_step_of_withFetchWord : passes (step (State.reset.withFetchWord 32 0x3))
    (fun t => decide (t.errCode = 5 ∧ t.phase = .idle ∧ t.curCmd = 3)) = true := by decide +kernel

/-- R92: an IN_LEN write while BUSY is dropped; R38: the flags a later acceptance clears. -/
theorem test_write_while_busy : (busWrite 0x000C 7 (busWrite 0x0000 0x1 State.reset)).inLen = 0 ∧
    (busWrite 0x000C 7 (busWrite 0x0000 0x1 State.reset)).writeDropped = true := by decide

/-- R43: KEY_LEN keeps six bits: 65 reads 1. R46: CAPS with the default parameters. R81: off[1:0] are ignored. -/
theorem test_registers : busReadWord 0x0008 (busWrite 0x000B 65 State.reset) = 1 ∧
    busReadWord 0x0014 State.reset = 0x20001000 ∧ busReadWord 0x0020 (busWrite 0x0020 7 State.reset) = 0 := by decide

/-- R82, R83: lanes, the lowest byte at the lowest index; nothing at or beyond the capacity. -/
theorem test_inBuf_lanes :
    (busWrite 0x1006 0x44332211 (placed smallConfig [] [])).inBuf = [(4, 0x11), (5, 0x22), (6, 0x33), (7, 0x44)] ∧
    (busWrite 0x1018 0x44332211 (placed smallConfig [] [])).inBuf = [] := by decide

/-- A running program of one statement. -/
def oneLine (st : Stmt) : Master := Master.start [⟨none, st⟩]

/-- R129, R130: READOUT reads OUT_LEN first and, for five bytes, has two words still to read; a jump to no line's label
stops the program (assumption 8). -/
theorem test_host_statements :
    (masterStep (oneLine .readOut) { State.reset with outLen := 5 }).1.reads = [5] ∧
    (masterStep (oneLine .readOut) { State.reset with outLen := 5 }).1.pendingReads = [0x4000, 0x4004] ∧
    (masterStep (oneLine (.jmp 3)) State.reset).1.status = .noSuchLabel := by decide

/-- R130: the statements SETKEY, LOADIN and RUN stand for. -/
theorem test_pseudo_statements :
    setKey [0x31, 0x32, 0x33, 0x34, 0x35] = [.w32 0x0020 0x34333231, .w32 0x0024 0x00000035, .w32 0x0008 5] ∧
    loadIn [0x41] = [.w32 0x1000 0x41, .w32 0x000C 1] ∧
    runCommand .decSm4 = [.w32 0x0000 0x12, .poll 0x0004 0x1 0x0] := by decide

/-! ### Witnesses: the hypotheses of each obligation can hold together -/

/-- DecodeOfEncodeIsTheCommand. -/
theorem witness_wellFormed : Instr.encSm4.wellFormed = true ∧ (Instr.illegal 0xFFFFFFFF).wellFormed = true := by decide

/-- LegalWordsAreExactlyFour, ReservedFieldValuesAreIllegal: each clause at the ends of its range. -/
theorem witness_reserved_words :
    ((0x00000100 : Word).toNat / 256 ≠ 0 ∧ (0xFFFFFF01 : Word).toNat / 256 ≠ 0) ∧
    ((0x10 : Word).toNat % 16 = 0 ∧ 3 ≤ (0x03 : Word).toNat % 16 ∧ 3 ≤ (0x1F : Word).toNat % 16) ∧
    (2 ≤ (0x21 : Word).toNat / 16 % 16 ∧ 2 ≤ (0xF2 : Word).toNat / 16 % 16) := by decide

/-- A state that is BUSY with a command word, some turns listed. -/
def busyWith (w : Word) (ts : List Turn) (s : State) : State := { s with phase := .busy, curCmd := w, schedule := ts }

/-- StepRunsTheDecodedCommand: its three clauses. -/
theorem witness_step :
    ((busyWith 0x12 [.core, .reset] State.reset).phase = .busy ∧ decode 0x12 = .decSm4 ∧
      (busyWith 0x12 [.core, .reset] State.reset).schedule = .core :: [.reset]) ∧
    ((busyWith 0x12 [] State.reset).phase = .busy ∧ (busyWith 0x12 [] State.reset).schedule = []) ∧
    ({ State.reset with schedule := [.core] }.phase = .idle ∧
      { State.reset with schedule := [.core] }.schedule = .core :: []) := by decide

/-- PhaseChangesOnlyByAcceptanceCompletionReset: an acceptance, a completion and a reset. -/
theorem witness_phase_changes :
    (∃ s t : State, step s = .next t ∧ (s.phase = .idle ∧ t.phase = .busy)) ∧
    (∃ s t : State, step s = .next t ∧ (s.phase = .busy ∧ t.phase = .idle ∧ t.done = true)) ∧
    (∃ s t : State, step s = .next t ∧ (s.phase = .busy ∧ t.phase = .idle ∧ t.done = false)) :=
  ⟨⟨{ State.reset with masters := [oneLine (.w32 0x0000 0x1)] }, _, rfl, rfl, rfl⟩,
   ⟨busyWith 0x3 [] State.reset, _, rfl, rfl, rfl, rfl⟩, ⟨busyWith 0x3 [.reset] State.reset, _, rfl, rfl, rfl, rfl⟩⟩

/-- DoneRisesOnlyAtACompletion. -/
theorem witness_done_rises : ∃ s t : State, step s = .next t ∧ s.done = false ∧ t.done = true :=
  ⟨busyWith 0x3 [] State.reset, _, rfl, rfl, rfl⟩

/-- OperandsAreFrozenWhileBusy: a turn while BUSY that tries to write IN_LEN. -/
theorem witness_operands_frozen : ∃ s t : State, step s = .next t ∧ s.phase = .busy ∧ t.phase = .busy ∧
    t.writeDropped = true :=
  ⟨{ busyWith 0x1 [.master 0] State.reset with masters := [oneLine (.w32 0x000C 9)] }, _, rfl, rfl, rfl, rfl⟩

/-- AcceptedCommandIsOverInBoundedSteps, with turns of masters before the core's. -/
theorem witness_accepted : (busyWith 0x3 [.master 0, .master 1, .core] State.reset).phase = .busy := by decide

/-- LatencyDoesNotChangeTheResult, with three masters' turns before the core's; and with an IN_LEN past the end of a full
IN_BUF, in a state that meets the invariant. -/
theorem witness_latency : ∃ (s : State) (ks : List Nat) (ts : List Turn), s.phase = .busy ∧ s.inputSpecified ∧
    s.schedule = ks.map Turn.master ++ .core :: ts ∧ s.inLen.toNat = 5 ∧ ks.length = 3 :=
  ⟨busyWith 0x1 [.master 0, .master 0, .master 7, .core, .master 1] (placed Config.standard k16 hello), [0, 0, 7],
    [.master 1], by decide⟩

theorem witness_latency_long_input : ∃ s : State, s.phase = .busy ∧ s.inputSpecified ∧
    s.schedule = [].map Turn.master ++ .core :: [] ∧ s.cfg.inBufBytes < s.inLen.toNat ∧ s.Inv :=
  ⟨{ busyWith 0x12 [.core] (placed smallConfig k16 k24) with inLen := 25 }, by decide⟩

/-- WriteAfterCommandMayLandOrBeDropped: the program of P5. -/
theorem witness_race : ∃ (s : State) (m : Master) (w v : Word) (l0 l1 : Line), s.phase = .idle ∧ s.masters = [m] ∧
    m.status = .running ∧ m.pendingReads = [] ∧ m.prog[m.pc]? = some l0 ∧ m.prog[m.pc + 1]? = some l1 ∧
    l0.stmt = .w32 0x0000 w ∧ l1.stmt = .w32 0x000C v :=
  ⟨{ placed Config.standard k16 hello with masters := [Master.start (plainLines [.w32 0 1, .w32 0xC 7])] },
    Master.start (plainLines [.w32 0 1, .w32 0xC 7]), 1, 7, ⟨none, .w32 0 1⟩, ⟨none, .w32 0xC 7⟩, by decide⟩

/-- HostStatementsDoTheirTransactions: a running program at a line of each statement; the jump has its label, on the
first of two lines that bear it. -/
theorem witness_host : ∀ st ∈ [Stmt.w32 0x0000 1, .r32 0x0004, .r32Check 0x0004 0, .poll 0x0004 1 0, .jmp 4, .halt,
    .readOut], ∃ (m : Master) (l : Line), m.status = .running ∧ m.pendingReads = [] ∧ m.prog[m.pc]? = some l ∧
      l.stmt = st ∧ (m.prog[1]?).bind Line.label = some 4 ∧ (∀ j < 1, (m.prog[j]?).bind Line.label ≠ some 4) ∧
      (m.prog[2]?).bind Line.label = some 4 := by
  intro st hst
  refine ⟨Master.start [⟨none, st⟩, ⟨some 4, .halt⟩, ⟨some 4, .halt⟩], ⟨none, st⟩, ?_⟩
  revert st
  decide

/-- HostStatementsDoTheirTransactions: a jump to no line's label; the end of the lines; a READOUT under way; a program
that ended. -/
theorem witness_host_ends :
    ((oneLine (.jmp 3)).status = .running ∧ (oneLine (.jmp 3)).prog[0]? = some ⟨none, .jmp 3⟩ ∧
      ∀ i : Nat, ((oneLine (.jmp 3)).prog[i]?).bind Line.label ≠ some 3) ∧
    ((Master.start []).status = .running ∧ (Master.start []).pendingReads = [] ∧
      (Master.start []).prog[(Master.start []).pc]? = none) ∧
    ({ Master.start [] with pendingReads := [0x4000, 0x4004] }.status = .running ∧
      { Master.start [] with pendingReads := [0x4000, 0x4004] }.pendingReads = 0x4000 :: [0x4004]) ∧
    { Master.start [] with status := .ended }.status ≠ .running := by
  refine ⟨⟨rfl, rfl, fun i => ?_⟩, by decide, by decide, by decide⟩
  rcases i with _ | i
  · decide
  · exact nofun

/-- HostStatementsDoTheirTransactions: a result of five bytes, and one that fills a small OUT_BUF, whose words READOUT
reads. -/
theorem witness_readout : ∀ T ∈ [hello, k24 ++ k24], ∃ s : State, s.cfg.legal ∧ s.phase = .idle ∧
    T.length ≤ s.cfg.outBufBytes ∧ ∀ i < T.length, s.outBuf.read i = some (byteAt T i) := by
  intro T hT
  refine ⟨{ placed smallConfig [] [] with outBuf := Memory.ofBytes 0 T }, ?_⟩
  revert T
  decide

/-- The bus statements' phases: AcceptanceOfACommandWord at the ends of CMD's four offsets, WritesWhileBusyAreDropped,
StatusReservedBitsAndWrites, RegisterWordsWrite. -/
theorem witness_bus_phases : State.reset.phase = .idle ∧ (busyWith 0x1 [] State.reset).phase = .busy ∧
    (0x0000 : Offset).toNat < 4 ∧ (0x0003 : Offset).toNat < 4 := by decide

/-- RegisterWordsRead, CapsReadsTheCapacities: legal parameters, the defaults among them and the smallest; flags as
acceptance leaves them, while BUSY. -/
theorem witness_register_words : smallConfig.legal ∧ Config.standard.legal ∧ Config.standard.inBufBytes = 4096 ∧
    Config.standard.outBufBytes = 8192 ∧ (busyWith 0x1 [] State.reset).flagsOk ∧
    (busyWith 0x1 [] State.reset).phase = .busy := by decide

/-- KeyWriteStoresFourBytesOnly: KEY0 and KEY7. -/
theorem witness_key_write : State.reset.phase = .idle ∧ 0 < 8 ∧ 7 < 8 := by decide

/-- InBufWindowWrite, InBufWindowRead: the window's ends; words below, and at, the capacity. -/
theorem witness_inBuf : (0x1000 ≤ (0x1000 : Offset).toNat ∧ (0x1FFF : Offset).toNat ≤ 0x1FFF) ∧
    (placed smallConfig [] hello).inBuf.wf = true ∧ (placed smallConfig [] hello).phase = .idle ∧
    (busyWith 0x1 [] (placed smallConfig [] hello)).phase = .busy ∧
    (0x1014 - 0x1000 + 3 < smallConfig.inBufBytes ∧ smallConfig.inBufBytes ≤ 0x1018 - 0x1000) := by decide

/-- OutBufWindowReadAndWrite: the window's ends; a word at the capacity. -/
theorem witness_outBuf : (0x4000 ≤ (0x4000 : Offset).toNat ∧ (0x7FFF : Offset).toNat ≤ 0x7FFF) ∧
    State.reset.phase = .idle ∧ (busyWith 0x1 [] State.reset).phase = .busy ∧
    ¬ 0x7FFC - 0x4000 < Config.standard.outBufBytes := by decide

/-- ReservedOffsets: both ends of each range; the offset beside each end is not reserved. -/
theorem witness_reserved_offsets :
    ([0x0018, 0x001F, 0x0040, 0x0FFF, 0x2000, 0x3FFF, 0x8000, 0xFFFF] : List Offset).map regionOf =
      List.replicate 8 .reserved ∧
    ([0x0017, 0x0020, 0x003F, 0x1000, 0x1FFF, 0x4000, 0x7FFF] : List Offset).map regionOf =
      [.caps, .key 0, .key 7, .inBuf 0, .inBuf 0xFFC, .outBuf 0, .outBuf 0x3FFC] := by decide

/-- OffsetLowBitsAreIgnored. -/
theorem witness_low_bits : (0x1000 : Offset).toNat / 4 = (0x1003 : Offset).toNat / 4 := by decide

/-- EncAesSucceeds: each key length, on an input that fills the buffer. -/
theorem witness_encAes : ∀ K ∈ [k16, k24, k32], ∃ s : State, s.cfg.legal ∧ s.inLen.toNat = s.cfg.inBufBytes ∧
    s.inLen.toNat ≤ s.cfg.inBufBytes ∧ 4 * ((16 * (s.inLen.toNat / 16 + 1) + 2) / 3) ≤ s.cfg.outBufBytes ∧
    (s.keyLen.toNat = 16 ∨ s.keyLen.toNat = 24 ∨ s.keyLen.toNat = 32) ∧ s.keyLen.toNat = K.length := by
  intro K hK
  refine ⟨placed smallConfig K k24, ?_⟩
  revert K
  decide

/-- EncSm4Succeeds: an input as long as the buffer, and the empty input. -/
theorem witness_encSm4 : ∀ P ∈ [[], k24], ∃ s : State, s.cfg.legal ∧ s.inLen.toNat = P.length ∧
    s.inLen.toNat ≤ s.cfg.inBufBytes ∧ 4 * ((16 * (s.inLen.toNat / 16 + 1) + 2) / 3) ≤ s.cfg.outBufBytes ∧
    s.keyLen.toNat = 16 := by
  intro P hP
  refine ⟨placed smallConfig k16 P, ?_⟩
  revert P
  decide

/-- V8.6's text: it decrypts to fifteen 42 and a 10, the largest pad. -/
def fullPadText : List Byte :=
  [0x4a, 0x51, 0x71, 0x71, 0x46, 0x6d, 0x35, 0x54, 0x6f, 0x45, 0x4f, 0x4f,
   0x69, 0x4e, 0x6e, 0x7a, 0x6c, 0x4d, 0x36, 0x64, 0x56, 0x51, 0x3d, 0x3d]

/-- V7.0h's text: a plaintext of fifteen bytes, the smallest pad. -/
def smallPadText : List Byte :=
  [0x6b, 0x4a, 0x47, 0x4a, 0x70, 0x63, 0x66, 0x43, 0x4c, 0x55, 0x38, 0x6b,
   0x47, 0x48, 0x73, 0x78, 0x6e, 0x2f, 0x6c, 0x4c, 0x79, 0x67, 0x3d, 0x3d]

/-- V7.0l's text, under SM4. -/
def smallPadTextSm4 : List Byte :=
  [0x59, 0x6e, 0x59, 0x4d, 0x52, 0x6a, 0x55, 0x34, 0x78, 0x51, 0x70, 0x6c,
   0x69, 0x4f, 0x68, 0x6f, 0x6c, 0x54, 0x49, 0x4c, 0x47, 0x77, 0x3d, 0x3d]

/-- The bytes a text decodes to. -/
def rawOf (T : List Byte) : List Byte := decodeGroups T

/-- The hypotheses of DecAesSucceeds, DecSm4Succeeds with the IV as `deriveIv` gives it. -/
def decHypotheses (alg : Alg) (K T : List Byte) (n : Nat) : Bool :=
  let s := placed smallConfig K T
  let C := rawOf T
  let M := cbcDecrypt alg K (deriveIv alg K) C
  decide (s.cfg.legal ∧ s.inLen.toNat ≤ s.cfg.inBufBytes ∧ base64Decode s.inputBytes = .ok C ∧ C.length ≠ 0 ∧
    C.length % 16 = 0 ∧ K = s.key.toList.take s.keyLen.toNat ∧ n = (byteAt M (M.length - 1)).toNat ∧ 1 ≤ n ∧ n ≤ 16)

/-- DecAesSucceeds: the smallest and the largest pad; a 24-byte key (V8.2). -/
theorem witness_decAes : decHypotheses .aes k16 smallPadText 1 = true ∧ decHypotheses .aes k16 fullPadText 16 = true := by
  decide +kernel

/-- DecAesSucceeds under a 24-byte (V7.0b) and a 32-byte key (V7.0c). -/
theorem witness_decAes_longKeys :
    decHypotheses .aes k24 [0x49, 0x59, 0x57, 0x36, 0x65, 0x53, 0x77, 0x4a, 0x7a, 0x6a, 0x6d, 0x44,
      0x42, 0x65, 0x5a, 0x48, 0x6e, 0x57, 0x79, 0x6a, 0x67, 0x67, 0x3d, 0x3d] 11 = true ∧
    decHypotheses .aes k32 [0x55, 0x51, 0x64, 0x77, 0x34, 0x34, 0x4a, 0x44, 0x71, 0x7a, 0x73, 0x78,
      0x59, 0x70, 0x6b, 0x53, 0x43, 0x77, 0x58, 0x44, 0x49, 0x41, 0x3d, 0x3d] 11 = true := by decide +kernel

/-- DecSm4Succeeds: a pad of one byte, and of eight. -/
theorem witness_decSm4 : decHypotheses .sm4 k16 smallPadTextSm4 1 = true ∧
    decHypotheses .sm4 k16 test1234Text 8 = true := by decide +kernel

/-- IllegalCommandCompletesWithCode5: words beside the legal ones, while IDLE. -/
theorem witness_illegal : (0x00000000 : Word) ≠ 0x00000001 ∧ (0x80000001 : Word) ≠ 0x00000001 ∧
    (0x00000003 : Word) ≠ 0x00000002 ∧ (0x00000013 : Word) ≠ 0x00000012 ∧ (0x00000010 : Word) ≠ 0x00000011 ∧
    State.reset.phase = .idle := by decide

/-- FirstFailureInPriorityOrderIsReported, encryption: no failure; an input past IN_BUF; a text past OUT_BUF; a bad key;
the first two together with a bad key. -/
theorem witness_encryption_failures :
    failsWithCode .encAes { placed smallConfig [] [] with inLen := 25 } 6 = true ∧
    failsWithCode .encSm4 { placed (Config.mk 40 40 0) [] [] with inLen := 40 } 6 = true ∧
    failsWithCode .encSm4 (placed smallConfig [] []) 1 = true ∧
    passes (exec .encSm4 (placed smallConfig k16 [])) (fun t => !t.error) = true := by decide +kernel

/-- FirstFailureInPriorityOrderIsReported, decryption: each code of the order, the one before it absent (V8.10, V8.11,
V8.19 and 60_exceptions.md R408). -/
theorem witness_decryption_failures :
    failsWithCode .decAes { placed smallConfig [] [] with inLen := 25 } 6 = true ∧
    failsWithCode .decAes (placed smallConfig [] [0x61, 0x62, 0x63]) 2 = true ∧
    failsWithCode .decSm4 (placed smallConfig [] []) 3 = true ∧
    failsWithCode .decSm4 (placed smallConfig [] (List.replicate 23 0x41 ++ [0x3D])) 3 = true ∧
    failsWithCode .decSm4 (placed smallConfig [] helloText) 1 = true ∧
    failsWithCode .decSm4 (placed smallConfig k16 helloText) 4 = true := by decide +kernel

/-- The two pads beside the range, 0 (V8.23) and 17 (V8.25), are failures with code 4. -/
theorem witness_pad_failures :
    failsWithCode .decAes (placed Config.standard k16 [0x73, 0x6d, 0x79, 0x50, 0x62, 0x67, 0x45, 0x38, 0x73, 0x59, 0x6e, 0x48,
      0x70, 0x47, 0x45, 0x55, 0x7a, 0x69, 0x57, 0x49, 0x46, 0x41, 0x3d, 0x3d]) 4 = true ∧
    failsWithCode .decAes (placed Config.standard k16 ([0x4f, 0x36, 0x71, 0x67, 0x71, 0x4c, 0x6d, 0x74, 0x56, 0x58, 0x62, 0x34, 0x32, 0x50, 0x6f, 0x50] ++
      [0x49, 0x47, 0x55, 0x4c, 0x48, 0x37, 0x47, 0x43, 0x66, 0x68, 0x53, 0x46] ++
      [0x35, 0x71, 0x62, 0x41, 0x6c, 0x50, 0x4b, 0x47, 0x4c, 0x79, 0x69, 0x68, 0x51, 0x48, 0x63, 0x3d])) 4 = true := by
  decide +kernel

/-- FailedCommandPublishesNothing: a command that fails. -/
theorem witness_failed_command : ∃ t, exec .decSm4 (placed smallConfig [] []) = .next t ∧ t.error = true := by
  obtain ⟨t, h, hp⟩ := next_of_passes (show passes (exec .decSm4 (placed smallConfig [] [])) (·.error) = true by
    decide +kernel)
  exact ⟨t, h, hp⟩

/-- CommandsLeaveTheirFrame: a command that succeeds and one that fails, with legal parameters. -/
theorem witness_frame : ∀ s ∈ [placed smallConfig [] [], placed smallConfig k16 test1234Text],
    s.cfg.legal ∧ ∃ t, exec .decSm4 s = .next t := by
  intro s hs
  refine ⟨?_, by cases exec_total : exec .decSm4 s with
    | next t => exact ⟨t, rfl⟩
    | fault r => cases r
    | refused r => simp [exec, execDecSm4, complete] at exec_total; split at exec_total <;> cases exec_total⟩
  revert s
  decide

/-- EncryptionOutputs: a success (no error), and the two failures. -/
theorem witness_encryption_outputs :
    passes (exec (encCommand .sm4) (placed smallConfig k16 hello)) (fun t => !t.error && t.outLen == 24) = true ∧
    failsWithCode (encCommand .aes) (placed smallConfig [] hello) 1 = true ∧
    failsWithCode (encCommand .aes) { placed smallConfig [] [] with inLen := 65535 } 6 = true ∧
    smallConfig.legal := by decide +kernel

/-- DecryptionOutputs: a success with the empty result (V8.6), and one of fifteen bytes. -/
theorem witness_decryption_outputs :
    passes (exec (decCommand .aes) (placed smallConfig k16 fullPadText)) (fun t => !t.error && t.outLen == 0) = true ∧
    passes (exec (decCommand .sm4) (placed smallConfig k16 smallPadTextSm4)) (fun t => !t.error && t.outLen == 15) =
      true := by decide +kernel

/-- ResultDependsOnOperandsOnly: two states that differ in a key byte past KEY_LEN, an input byte past IN_LEN, the status
and the output of an earlier command. -/
theorem witness_operands : ∃ s s' : State, s ≠ s' ∧ s.cfg = s'.cfg ∧ s.keyLen = s'.keyLen ∧ s.inLen = s'.inLen ∧
    (∀ k < s.keyLen.toNat, byteAt s.key.toList k = byteAt s'.key.toList k) ∧
    ∀ k < min s.inLen.toNat s.cfg.inBufBytes, s.inByte k = s'.inByte k := by
  refine ⟨placed smallConfig k16 hello,
    { placed smallConfig k16 hello with
      key := keyOf k32, inBuf := Memory.ofBytes 0 (hello ++ hello), done := true, outLen := 1, outBuf := [(0, 1)] },
    by decide, rfl, rfl, rfl, by decide, ?_⟩
  intro k hk
  have h5 : k < 5 := by
    have hm : min (5 : Nat) 24 = 5 := rfl
    exact hm ▸ hk
  interval_cases k <;> rfl

/-- A small core to which a text was loaded: IN_LEN counts all of it, IN_BUF holds what it has room for. -/
def announced (c : List Byte) : State :=
  { placed smallConfig k16 (c.take smallConfig.inBufBytes) with inLen := BitVec.ofNat 16 c.length }

/-- DecryptionUndoesEncryption: a plaintext whose text just fits IN_BUF, and one whose text fits OUT_BUF only, with a
stand-in for the text: of it IN_BUF holds the first bytes, as many as it has. Both states meet the invariant. -/
theorem witness_round_trip : ∀ p ∈ [k16.take 15, k16], ∃ (s u : State) (c : List Byte), s.cfg.legal ∧
    keyLenOk .sm4 s.keyLen.toNat = true ∧ s.holdsInput p ∧ p.length ≤ s.cfg.inBufBytes ∧
    c.length = 4 * ((16 * (p.length / 16 + 1) + 2) / 3) ∧ c.length ≤ s.cfg.outBufBytes ∧
    (c.length ≤ s.cfg.inBufBytes ↔ p.length = 15) ∧ u.cfg = s.cfg ∧ u.key = s.key ∧ u.keyLen = s.keyLen ∧
    u.holdsInput c ∧ s.Inv ∧ u.Inv := by
  intro p hp
  rcases (by revert p; decide : p = k16.take 15 ∨ p = k16) with rfl | rfl
  · exact ⟨placed smallConfig k16 (k16.take 15), announced (List.replicate 24 0x41), List.replicate 24 0x41, by
      (repeat' apply And.intro) <;> decide⟩
  · exact ⟨placed smallConfig k16 k16, announced (List.replicate 44 0x41), List.replicate 44 0x41, by
      (repeat' apply And.intro) <;> decide⟩

/-- UnpaddingChecksTheLastByteOnly: the bytes beside the range, 0 and 17, and its ends, 1 and 16. -/
theorem witness_unpadding :
    (16 ≤ (List.replicate 15 (0 : Byte)).length + ([] : List Byte).length + 1 ∧ (0 : Byte).toNat < 1 ∧
      16 < (17 : Byte).toNat) ∧
    (1 ≤ (1 : Byte).toNat ∧ (1 : Byte).toNat ≤ 16 ∧ ([] : List Byte).length + 1 = (1 : Byte).toNat) ∧
    (16 ≤ ([] : List Byte).length + (List.replicate 15 (0 : Byte)).length + 1 ∧
      (List.replicate 15 (0 : Byte)).length + 1 = (16 : Byte).toNat) := by decide

/-- Base64InverseLaws: texts with one pad, two and none whose discarded bits are zero; and R346: a value of the last
character with such a bit set. -/
theorem witness_base64_inverse : base64Decode [0x5a, 0x67, 0x3d, 0x3d] = .ok [0x66] ∧
    (base64Val 0x67).map (fun v => v.toNat % 16) = some 0 ∧
    base64Decode [0x5a, 0x6d, 0x38, 0x3d] = .ok [0x66, 0x6f] ∧
    (base64Val 0x38).map (fun v => v.toNat % 4) = some 0 ∧
    base64Decode [0x5a, 0x6d, 0x39, 0x76] = .ok [0x66, 0x6f, 0x6f] ∧
    (base64Val 0x68).map (fun v => v.toNat % 16) = some 1 := by decide

/-- Base64ValidTexts: the empty text is valid, and a text that no B decodes is refused. -/
theorem witness_base64_texts : base64Decode [] = .ok [] ∧ base64Decode [0x5a, 0x3d, 0x3d, 0x3d] = .error .invalidEncoding := by
  decide

/-- Base64Alphabet: the ends of each range. -/
theorem witness_base64_alphabet : ([0, 25, 26, 51, 52, 61, 62, 63] : List (BitVec 6)).map base64Char =
    [0x41, 0x5A, 0x61, 0x7A, 0x30, 0x39, 0x2B, 0x2F] := by decide

/-- Base64PadBitsAreDiscarded: `Zg==` and `Zh==` (V6.9), `Zm8=` and `Zm9=` (V6.10). -/
theorem witness_pad_bits : base64Val 0x67 = some 32 ∧ base64Val 0x68 = some 33 ∧
    (32 : BitVec 6).toNat / 16 = (33 : BitVec 6).toNat / 16 ∧ isBase64Char 0x5A = true ∧ isBase64Char 0x6D = true ∧
    base64Val 0x38 = some 60 ∧ base64Val 0x39 = some 61 ∧
    (60 : BitVec 6).toNat / 4 = (61 : BitVec 6).toNat / 4 := by decide

/-- Base64EncodedLengthAndPads: a length of each remainder. -/
theorem witness_base64_lengths : ([] : List Byte).length % 3 = 0 ∧ ([0] : List Byte).length % 3 = 1 ∧
    ([0, 0] : List Byte).length % 3 = 2 := by decide

/-- CbcEncryptionChainsItsBlocks, CbcDecryptionChainsItsBlocks, CbcDecryptionUndoesEncryption: two blocks; each key length. -/
theorem witness_cbc : k16.length = 16 ∧ (k16 ++ k16).length = 16 * 2 ∧ keyLenOk .aes k16.length = true ∧
    keyLenOk .aes k24.length = true ∧ keyLenOk .aes k32.length = true ∧ keyLenOk .sm4 k16.length = true := by decide

/-- CbcErrorPropagation: the changed block is the first, or the second, and has a block after it. -/
theorem witness_cbc_error : k16.length = 16 ∧ ([] : List Byte).length = 16 * 0 ∧ k16.length = 16 * 1 ∧
    sm4Block.length = 16 ∧ k32.length % 16 = 0 ∧ k32 ≠ [] := by decide

/-- AesKeyExpansionRecurrence, AesDecryptionUndoesEncryption, and the SM4 statements: the key lengths and a block. -/
theorem witness_cipher_lengths : k16.length = 4 * 4 ∧ k24.length = 4 * 6 ∧ k32.length = 4 * 8 ∧
    sm4Block.length = 16 := by decide

/-- ResetClearsTheCore: reset is asserted while BUSY. -/
theorem witness_reset : ∃ (s : State) (ts : List Turn), s.schedule = .reset :: ts ∧ s.phase = .busy ∧ s.inBuf ≠ [] :=
  ⟨busyWith 0x1 [.reset] (placed smallConfig k16 hello), [], by decide⟩

/-- EveryStepKeepsTheInvariant: a BUSY state with operands in place, and an IDLE one with a result, and their steps. -/
theorem witness_invariant :
    (∃ s t : State, s.Inv ∧ step s = .next t ∧ s.phase = .busy) ∧
    (∃ s t : State, s.Inv ∧ step s = .next t ∧ s.phase = .idle ∧ s.outLen = 1) :=
  ⟨⟨busyWith 0x3 [] (placed smallConfig k16 hello), _, by decide, rfl, rfl⟩,
   ⟨{ placed smallConfig k16 hello with done := true, outLen := 1, outBuf := [(0, 7)] }, _, by decide, rfl, rfl, rfl⟩⟩

end Sys2Proof.Tests
end

section
/-! PROOFS. The invariant at reset: asserting reset brings any state with legal parameters into the invariant, and the
state after reset is such a state, with the parameters of R7's defaults. -/

namespace Sys2Proof.Machine

/-- R7: the default parameters are legal. -/
theorem standard_legal : Config.standard.legal := by decide

/-- After reset both buffers list no byte, so none is out of order or beyond a capacity (R48, R49). -/
theorem assertReset_memoriesOk (s : State) : s.assertReset.memoriesOk :=
  ⟨Memory.wf_nil, Memory.below_nil _, Memory.wf_nil, Memory.below_nil _⟩

/-- After reset no flag is set and no code is recorded (R55). -/
theorem assertReset_flagsOk (s : State) : s.assertReset.flagsOk := by
  simp [State.flagsOk]

/-- After reset OUT_LEN counts no byte and OUT_BUF specifies none (R55). -/
theorem assertReset_outputOk (s : State) : s.assertReset.outputOk :=
  fun _ => rfl

/-- A reset turn needs only legal parameters to establish the invariant: it keeps nothing else the core held. -/
theorem assertReset_inv {s : State} (hcfg : s.cfg.legal) : s.assertReset.Inv :=
  ⟨hcfg, assertReset_memoriesOk s, assertReset_flagsOk s, assertReset_outputOk s⟩

/-- Reset leaves the state after reset as it is. -/
theorem assertReset_reset : State.reset.assertReset = State.reset := rfl

/-- Settles O59: the state after reset is what asserting reset gives, with the default parameters. -/
theorem resetMeetsTheInvariant : Obligations.ResetMeetsTheInvariant := by
  unfold Obligations.ResetMeetsTheInvariant
  rw [← assertReset_reset]
  exact assertReset_inv standard_legal

end Sys2Proof.Machine
end

section
/-! PROOFS. The invariant is kept by every step: by each thing a step can do, namely a completion, a bus write, a read,
a reset and the bookkeeping of the other agents. -/

namespace Sys2Proof.Machine

/-! ### Completions keep the invariant (40_commands.md R153) -/

/-- A result inside OUT_BUF is specified exactly below OUT_LEN (R45, R49), and success leaves the flags in agreement. -/
theorem succeed_inv {s : State} {T : List Byte} (h : s.Inv) (hT : T.length ≤ s.cfg.outBufBytes) :
    (s.succeed T).Inv := by
  obtain ⟨hcfg, ⟨hinWf, hinBelow, -, -⟩, -, -⟩ := h
  have hout : s.cfg.outBufBytes ≤ 16384 := hcfg.2.2.2.2.2
  have hlen : (BitVec.ofNat 16 T.length).toNat = T.length := Nat.mod_eq_of_lt (by omega)
  refine ⟨hcfg, ⟨hinWf, hinBelow, Memory.wf_ofBytes 0 T, Memory.below_ofBytes T (by simpa using hT)⟩, ?_, fun _ => ?_⟩
  · simp [State.flagsOk]
  · rw [State.succeed_outBuf, State.succeed_outLen, hlen, Memory.indices_ofBytes, List.range_eq_range']

/-- The code an error records is never 0, so ERROR and ERR_CODE agree (R39, R40). -/
theorem CommandError.code_ne_zero (e : CommandError) : e.code ≠ 0#4 := by cases e <;> decide

/-- A failure leaves no byte of OUT_BUF specified and records a code of R400. -/
theorem raise_inv {s : State} (h : s.Inv) (e : CommandError) : (s.raise e).Inv := by
  obtain ⟨hcfg, ⟨hinWf, hinBelow, -, -⟩, -, -⟩ := h
  refine ⟨hcfg, ⟨hinWf, hinBelow, Memory.wf_nil, Memory.below_nil _⟩, ?_, fun _ => rfl⟩
  simp [State.flagsOk, CommandError.code_ne_zero, (code_range e).2]

/-- Every command, in every state that meets the invariant, completes in one that meets it. -/
theorem exec_inv {i : Instr} {s t : State} (h : s.Inv) (hexec : exec i s = .next t) : t.Inv := by
  rcases exec_cases i s with ⟨T, hrun, hsucc⟩ | ⟨e, -, hfail⟩
  · cases hsucc.symm.trans hexec
    exact succeed_inv h (runOf_length h.1 hrun)
  · cases hfail.symm.trans hexec
    exact raise_inv h e

/-! ### Bus writes keep the invariant -/

/-- Acceptance clears every flag and OUT_LEN; while BUSY nothing is asked of OUT_BUF's bytes (R150). -/
theorem accept_inv {s : State} (h : s.Inv) (w : Word) : (s.accept w).Inv := by
  obtain ⟨hcfg, hmem, -, -⟩ := h
  exact ⟨hcfg, hmem, by simp [State.flagsOk], fun hidle => nomatch hidle⟩

/-- A dropped write is recorded while BUSY, where the invariant allows it (R41). -/
theorem droppedWriteFlag_inv {s : State} (h : s.Inv) (hbusy : s.phase = .busy) : s.droppedWriteFlag.Inv := by
  obtain ⟨hcfg, hmem, ⟨hbusyFlags, herr, herrDone, hcode, -, hout⟩, houtput⟩ := h
  exact ⟨hcfg, hmem, ⟨hbusyFlags, herr, herrDone, hcode, fun _ => .inl hbusy, hout⟩, houtput⟩

/-- A write to the IN_BUF window stays canonical and inside IN_BUF_BYTES (R83). -/
theorem writeInBuf_inv {s : State} (h : s.Inv) (a : Nat) (v : Word) :
    State.Inv { s with inBuf := writeWindowWord s.cfg.inBufBytes s.inBuf a v } := by
  obtain ⟨hcfg, ⟨hinWf, hinBelow, hout⟩, hflags, houtput⟩ := h
  exact ⟨hcfg, ⟨writeWindowWord_wf _ a v hinWf, writeWindowWord_below a v hinBelow, hout⟩, hflags, houtput⟩

theorem busWrite_inv {s : State} (h : s.Inv) (off : Offset) (v : Word) : (busWrite off v s).Inv := by
  rcases busWrite_cases off v s with
    ⟨hbusy, hw⟩ | ⟨-, ⟨-, hw⟩ | ⟨-, hw | hw | hw | ⟨n, hw⟩ | ⟨a, hw⟩⟩⟩ <;> rw [hw]
  · exact droppedWriteFlag_inv h hbusy
  · exact accept_inv h v
  · exact h
  · exact h
  · exact h
  · exact h
  · exact writeInBuf_inv h a v

/-! ### The other agents' turns keep the invariant -/

/-- The invariant asks nothing of the schedule. -/
theorem setSchedule_inv {s : State} (h : s.Inv) (ts : List Turn) : (s.setSchedule ts).Inv := h

/-- The invariant asks nothing of the masters. -/
theorem setMasters_inv {s : State} (h : s.Inv) (ms : List Master) : (s.setMasters ms).Inv := h

/-- The invariant asks nothing of the draw counter, the one thing a read moves (R91). -/
theorem nextDraw_inv {s : State} (h : s.Inv) : s.nextDraw.Inv := h

theorem masterTurn_inv {s : State} (h : s.Inv) (k : Nat) : (masterTurn k s).Inv := by
  obtain ⟨ms, hturn | hturn | ⟨off, v, hturn⟩⟩ := masterTurn_cases k s <;> rw [hturn]
  · exact setMasters_inv h ms
  · exact setMasters_inv (nextDraw_inv h) ms
  · exact setMasters_inv (busWrite_inv h off v) ms

/-- Settles O60: each thing a step can do keeps the invariant. -/
theorem everyStepKeepsTheInvariant : Obligations.EveryStepKeepsTheInvariant := by
  intro s t h hstep
  obtain ⟨ts, ⟨-, hs⟩ | ⟨-, hs⟩ | ⟨k, hs⟩ | hs⟩ := step_cases s <;> rw [hs] at hstep
  · exact exec_inv (setSchedule_inv h ts) hstep
  · cases hstep; exact setSchedule_inv h ts
  · cases hstep; exact masterTurn_inv (setSchedule_inv h ts) k
  · cases hstep; exact assertReset_inv (setSchedule_inv h ts).1

end Sys2Proof.Machine
end

section
/-! PROOFS. What moves PHASE and DONE: a master's turn enters BUSY only by a write to CMD, never leaves it, and never
sets DONE; a completion and a reset do the rest. -/

namespace Sys2Proof.Machine

/-- Only acceptance, a write to CMD, takes the core from IDLE to BUSY (R50, R150). -/
theorem busWrite_enters_busy {off : Offset} {v : Word} {s : State} (hidle : s.phase = .idle)
    (hbusy : (busWrite off v s).phase = .busy) : off.toNat < 4 := by
  rcases busWrite_cases off v s with
    ⟨hp, -⟩ | ⟨-, ⟨h0, -⟩ | ⟨-, hw | hw | hw | ⟨n, hw⟩ | ⟨a, hw⟩⟩⟩
  · simp [hidle] at hp
  · rw [wordOffset_eq] at h0; omega
  all_goals simp [hw, hidle] at hbusy

/-- No bus write leaves BUSY (R92). -/
theorem busWrite_keeps_busy {off : Offset} {v : Word} {s : State} (hbusy : s.phase = .busy) :
    (busWrite off v s).phase = .busy := by
  rw [busWrite_of_busy hbusy, State.droppedWriteFlag_phase, hbusy]

/-- No bus write sets DONE (R38). -/
theorem busWrite_done {off : Offset} {v : Word} {s : State} (hdone : s.done = false) :
    (busWrite off v s).done = false := by
  rcases busWrite_cases off v s with
    ⟨-, hw⟩ | ⟨-, ⟨-, hw⟩ | ⟨-, hw | hw | hw | ⟨n, hw⟩ | ⟨a, hw⟩⟩⟩ <;> rw [hw]
  case inr.inl => rfl
  all_goals exact hdone

/-- A master's turn that enters BUSY is a write to CMD (R50). -/
theorem masterTurn_enters_busy {k : Nat} {s : State} (hidle : s.phase = .idle)
    (hbusy : (masterTurn k s).phase = .busy) :
    ∃ (off : Offset) (w : Word) (ms : List Master), off.toNat < 4 ∧
      masterTurn k s = (busWrite off w s).setMasters ms := by
  obtain ⟨ms, hturn | hturn | ⟨off, v, hturn⟩⟩ := masterTurn_cases k s <;> rw [hturn] at hbusy
  · simp [hidle] at hbusy
  · simp [hidle] at hbusy
  · exact ⟨off, v, ms, busWrite_enters_busy hidle hbusy, hturn⟩

/-- No master's turn leaves BUSY (R50). -/
theorem masterTurn_keeps_busy {k : Nat} {s : State} (hbusy : s.phase = .busy) : (masterTurn k s).phase = .busy := by
  obtain ⟨ms, hturn | hturn | ⟨off, v, hturn⟩⟩ := masterTurn_cases k s <;> rw [hturn]
  · exact hbusy
  · exact hbusy
  · exact busWrite_keeps_busy hbusy

/-- No master's turn sets DONE (R38). -/
theorem masterTurn_done {k : Nat} {s : State} (hdone : s.done = false) : (masterTurn k s).done = false := by
  obtain ⟨ms, hturn | hturn | ⟨off, v, hturn⟩⟩ := masterTurn_cases k s <;> rw [hturn]
  · exact hdone
  · exact hdone
  · exact busWrite_done hdone

/-- The turn of a step that enters BUSY is a master's write to CMD (R50). -/
theorem step_enters_busy {s t : State} (hstep : step s = .next t) (hidle : s.phase = .idle) (hbusy : t.phase = .busy) :
    ∃ (off : Offset) (w : Word) (ms : List Master) (ts : List Turn), off.toNat < 4 ∧
      t = (busWrite off w (s.setSchedule ts)).setMasters ms := by
  obtain ⟨ts, ⟨hp, -⟩ | ⟨-, hs⟩ | ⟨k, hs⟩ | hs⟩ := step_cases s
  · simp [hidle] at hp
  · cases hs.symm.trans hstep; simp [hidle] at hbusy
  · cases hs.symm.trans hstep
    obtain ⟨off, w, ms, hoff, hturn⟩ := masterTurn_enters_busy (s := s.setSchedule ts) hidle hbusy
    exact ⟨off, w, ms, ts, hoff, hturn⟩
  · cases hs.symm.trans hstep; simp at hbusy

/-- The turn of a step that leaves BUSY is the core's, the completion, or a reset (R50). -/
theorem step_leaves_busy {s t : State} (hstep : step s = .next t) (hbusy : s.phase = .busy) (hidle : t.phase = .idle) :
    ∃ ts, exec (decode s.curCmd) (s.setSchedule ts) = .next t ∨ t = (s.setSchedule ts).assertReset := by
  obtain ⟨ts, ⟨-, hs⟩ | ⟨hp, -⟩ | ⟨k, hs⟩ | hs⟩ := step_cases s
  · exact ⟨ts, .inl (hs.symm.trans hstep)⟩
  · simp [hbusy] at hp
  · cases hs.symm.trans hstep
    simp [masterTurn_keeps_busy (k := k) (s := s.setSchedule ts) hbusy] at hidle
  · cases hs.symm.trans hstep; exact ⟨ts, .inr rfl⟩

/-- Settles O8: a step enters BUSY by a master's write to CMD and leaves it by a completion or a reset. -/
theorem phaseChangesOnlyByAcceptanceCompletionReset : Obligations.PhaseChangesOnlyByAcceptanceCompletionReset := by
  intro s t hstep
  refine ⟨fun hidle hbusy => step_enters_busy hstep hidle hbusy, fun hbusy hidle => ?_⟩
  obtain ⟨ts, hexec | hreset⟩ := step_leaves_busy hstep hbusy hidle
  · exact .inl ⟨ts, hexec⟩
  · exact .inr ⟨ts, hreset⟩

/-- Settles O9: of the things a step can do, only a completion sets DONE. -/
theorem doneRisesOnlyAtACompletion : Obligations.DoneRisesOnlyAtACompletion := by
  intro s t hstep hclear hset
  obtain ⟨ts, ⟨hbusy, hs⟩ | ⟨-, hs⟩ | ⟨k, hs⟩ | hs⟩ := step_cases s
  · exact ⟨hbusy, ts, hs.symm.trans hstep⟩
  · cases hs.symm.trans hstep; simp [hclear] at hset
  · cases hs.symm.trans hstep
    simp [masterTurn_done (k := k) (s := s.setSchedule ts) hclear] at hset
  · cases hs.symm.trans hstep; simp at hset

end Sys2Proof.Machine
end

section
/-! PROOFS. The register words STATUS, CAPS and KEYn: what they read, and what a write to them does. -/

namespace Sys2Proof.Machine

/-! ### STATUS and CAPS -/

theorem regionOf_status : regionOf 0x0004 = .status := rfl

theorem regionOf_caps : regionOf 0x0014 = .caps := rfl

theorem busReadWord_status (s : State) : busReadWord 0x0004 s = s.statusWord := rfl

theorem busReadWord_caps (s : State) : busReadWord 0x0014 s = capsWord s.cfg := rfl

/-- While IDLE a write to a register the host can only read is ignored (R88). -/
theorem busWrite_readOnly {off : Offset} {v : Word} {s : State}
    (hreg : regionOf off = .status ∨ regionOf off = .outLen ∨ regionOf off = .caps) (hidle : s.phase = .idle) :
    busWrite off v s = s := by
  rw [busWrite_of_idle hidle]
  rcases hreg with hreg | hreg | hreg <;> rw [hreg]

/-- STATUS as a number: ERR_CODE from bit 8 up, the four flags below bit 4 (R87). -/
theorem statusWord_toNat (s : State) :
    s.statusWord.toNat = s.errCode.toNat * 256 + s.writeDropped.toNat * 8 + s.error.toNat * 4 + s.done.toNat * 2 +
      s.busyFlag.toNat :=
  statusBits_toNat s.errCode s.writeDropped s.error s.done s.busyFlag

/-- The bits of STATUS between and above its fields are 0 (R42): each field is below the next one's place. -/
theorem statusWord_reserved (s : State) :
    s.statusWord.extractLsb' 4 4 = 0 ∧ s.statusWord.extractLsb' 12 20 = 0 := by
  have hcode := s.errCode.isLt
  have hdropped := s.writeDropped.toNat_le
  have herror := s.error.toNat_le
  have hdone := s.done.toNat_le
  have hbusy := s.busyFlag.toNat_le
  refine ⟨BitVec.eq_of_toNat_eq (y := 0#4) ?_, BitVec.eq_of_toNat_eq (y := 0#20) ?_⟩ <;>
    rw [BitVec.extractLsb'_toNat, statusWord_toNat, Nat.shiftRight_eq_div_pow, BitVec.toNat_zero] <;>
    omega

/-- Settles O18: the reserved bits of the word a read gives, and a write that is ignored or dropped. -/
theorem statusReservedBitsAndWrites : Obligations.StatusReservedBitsAndWrites := by
  intro s v
  obtain ⟨hlow, hhigh⟩ := statusWord_reserved s
  exact ⟨hlow, hhigh, busWrite_readOnly (.inl regionOf_status), busWrite_of_busy⟩

/-- The halves of CAPS are the capacities, when each fits its half (R46). -/
theorem capsWord_halves {c : Config} (hin : c.inBufBytes < 65536) (hout : c.outBufBytes < 65536) :
    ((capsWord c).extractLsb' 0 16).toNat = c.inBufBytes ∧ ((capsWord c).extractLsb' 16 16).toNat = c.outBufBytes := by
  have hword : (capsWord c).toNat = c.outBufBytes * 65536 + c.inBufBytes := by
    simp only [capsWord, BitVec.toNat_append, BitVec.toNat_ofNat, Nat.mod_eq_of_lt hin, Nat.mod_eq_of_lt hout]
    rw [← Nat.shiftLeft_add_eq_or_of_lt hin, Nat.shiftLeft_eq]
  simp only [BitVec.extractLsb'_toNat, hword, Nat.shiftRight_eq_div_pow]
  omega

/-- Settles O19: the two halves of CAPS, the word the defaults give, and its ignored or dropped writes. -/
theorem capsReadsTheCapacities : Obligations.CapsReadsTheCapacities := by
  intro s v
  refine ⟨fun hlegal => ?_, fun hin hout => ?_, busWrite_readOnly (.inr (.inr regionOf_caps)), busWrite_of_busy⟩
  · obtain ⟨-, -, hin, -, -, hout⟩ := hlegal
    exact capsWord_halves (by omega) (by omega)
  · rw [busReadWord_caps, capsWord, hin, hout]; rfl

/-! ### The key words -/

theorem busReadWord_key {n : Nat} (hn : n < 8) (s : State) : busReadWord (BitVec.ofNat 16 (0x0020 + 4 * n)) s = 0 := by
  rw [busReadWord, regionOf_key hn]

theorem busWrite_key {n : Nat} (hn : n < 8) (v : Word) {s : State} (hidle : s.phase = .idle) :
    busWrite (BitVec.ofNat 16 (0x0020 + 4 * n)) v s = { s with key := writeKeyWord s.key n v } := by
  rw [busWrite_of_idle hidle, regionOf_key hn]

/-- A byte of a key store, read from the list of its bytes. -/
theorem byteAt_key (key : Vector Byte 32) {i : Nat} (hi : i < 32) : byteAt key.toList i = key[i] := by
  rw [byteAt_eq _ _ (by simpa using hi)]
  simp

/-- A key byte after a write of KEYn: a lane of the word in KEYn, the old byte elsewhere (R47, R82). -/
theorem byteAt_writeKeyWord (key : Vector Byte 32) (n : Nat) (v : Word) {i : Nat} (hi : i < 32) :
    byteAt (writeKeyWord key n v).toList i =
      if i / 4 = n then BitVec.ofNat 8 (v.toNat / 256 ^ (i % 4)) else byteAt key.toList i := by
  rw [byteAt_key _ hi, byteAt_key _ hi, writeKeyWord_get _ _ _ _ hi, lane_eq]

/-- Settles O21: a write to KEYn is `writeKeyWord` on the key store, and nothing of it can be read. -/
theorem keyWriteStoresFourBytesOnly : Obligations.KeyWriteStoresFourBytesOnly := by
  intro s n v hn hidle
  refine ⟨_, busWrite_key hn v hidle, rfl, fun i hi => ?_, busReadWord_key hn _⟩
  exact byteAt_writeKeyWord s.key n v hi

/-- Settles O22: the word of each region is made of other fields than the key. -/
theorem keyCannotBeReadBack : Obligations.KeyCannotBeReadBack := by
  intro s key off
  unfold busReadWord
  cases regionOf off <;> rfl

end Sys2Proof.Machine
end

section
/-! PROOFS. A command's result is a function of its operands: the parameters, KEY_LEN, IN_LEN, the key bytes KEY_LEN
counts and, when IN_LEN is inside IN_BUF, the input bytes. -/

namespace Sys2Proof.Machine

/-- `s` and `s'` hold the same operands of a command (R53). -/
def sameOperands (s s' : State) : Prop :=
  s.cfg = s'.cfg ∧ s.keyLen = s'.keyLen ∧ s.inLen = s'.inLen ∧ s.keyBytes = s'.keyBytes ∧
    (s.inLen.toNat ≤ s.cfg.inBufBytes → s.inputBytes = s'.inputBytes)

/-- Equal bytes below KEY_LEN make the same key, KEY_LEN being past the end of the key store or not. -/
theorem keyBytes_congr {s s' : State} (hlen : s.keyLen = s'.keyLen)
    (hkey : ∀ k < s.keyLen.toNat, byteAt s.key.toList k = byteAt s'.key.toList k) : s.keyBytes = s'.keyBytes := by
  refine List.ext_getElem (by simp only [keyBytes_length, hlen]) fun k hk _ => ?_
  obtain ⟨hlt, h32⟩ : k < s.keyLen.toNat ∧ k < 32 := by rw [keyBytes_length] at hk; omega
  have hbyte := hkey k hlt
  rw [byteAt_key _ h32, byteAt_key _ h32] at hbyte
  simpa [State.keyBytes] using hbyte

/-- Equal bytes below IN_LEN make the same input. -/
theorem inputBytes_congr {s s' : State} (hlen : s.inLen = s'.inLen)
    (hin : ∀ k < s.inLen.toNat, s.inByte k = s'.inByte k) : s.inputBytes = s'.inputBytes := by
  unfold State.inputBytes
  rw [← hlen]
  exact List.map_congr_left fun k hk => hin k (List.mem_range.1 hk)

/-- Only an input that fits IN_BUF is looked at, so two runs need agree on such an input only (R155). -/
theorem withinInputCapacity_congr {s s' : State} {r r' : Except CommandError (List Byte)} (hops : sameOperands s s')
    (hr : s.inputBytes = s'.inputBytes → r = r') : withinInputCapacity s r = withinInputCapacity s' r' := by
  obtain ⟨hcfg, -, hin, -, hinput⟩ := hops
  unfold withinInputCapacity
  rw [← hcfg, ← hin]
  split
  · rfl
  · exact hr (hinput (by omega))

theorem runEncrypt_congr (alg : Alg) {s s' : State} (hops : sameOperands s s') :
    runEncrypt alg s = runEncrypt alg s' := by
  refine withinInputCapacity_congr hops fun hinput => ?_
  obtain ⟨hcfg, hkeyLen, hin, hkey, -⟩ := hops
  simp only [encrypt, hcfg, hkeyLen, hin, hkey, hinput]

theorem runDecrypt_congr (alg : Alg) {s s' : State} (hops : sameOperands s s') :
    runDecrypt alg s = runDecrypt alg s' := by
  refine withinInputCapacity_congr hops fun hinput => ?_
  obtain ⟨-, hkeyLen, -, hkey, -⟩ := hops
  simp only [decrypt, hkeyLen, hkey, hinput]

/-- What a command's `Run` returns is a function of the operands (R53, R188). -/
theorem runOf_congr (i : Instr) {s s' : State} (hops : sameOperands s s') : runOf i s = runOf i s' := by
  cases i with
  | encAes => exact runEncrypt_congr .aes hops
  | encSm4 => exact runEncrypt_congr .sm4 hops
  | decAes => exact runDecrypt_congr .aes hops
  | decSm4 => exact runDecrypt_congr .sm4 hops
  | illegal w => rfl

/-- What a completion leaves in the result fields is a function of what `Run` returned (R153). -/
theorem complete_result (r : Except CommandError (List Byte)) (s s' : State) :
    ∃ t t', complete r s = .next t ∧ complete r s' = .next t' ∧ t.outLen = t'.outLen ∧ t.outBuf = t'.outBuf ∧
      t.error = t'.error ∧ t.errCode = t'.errCode := by
  cases r with
  | ok T => exact ⟨_, _, rfl, rfl, rfl, rfl, rfl, rfl⟩
  | error e => exact ⟨_, _, rfl, rfl, rfl, rfl, rfl, rfl⟩

/-- Settles O38: equal operands give one result of `Run`, and a completion writes nothing else to the result fields. -/
theorem resultDependsOnOperandsOnly : Obligations.ResultDependsOnOperandsOnly := by
  intro i s s' hcfg hkeyLen hinLen hkey hinput
  have hops : sameOperands s s' :=
    ⟨hcfg, hkeyLen, hinLen, keyBytes_congr hkeyLen hkey,
      fun hfits => inputBytes_congr hinLen fun k hk => hinput k (by omega)⟩
  rw [exec_eq_complete, exec_eq_complete, runOf_congr i hops]
  exact complete_result _ s s'

end Sys2Proof.Machine
end

section
/-! PROOFS. The bus, offset by offset: what the register words, the two windows and the reserved offsets read, and what
a write to them does. Every proof names the region the offset falls in, then says what the bus does with it. -/

namespace Sys2Proof.Machine

/-! ### Any offset -/

/-- Settles O16: a write while BUSY is dropped before its offset is looked at. -/
theorem writesWhileBusyAreDropped : Obligations.WritesWhileBusyAreDropped :=
  fun _ _ _ hbusy => busWrite_of_busy hbusy

/-- Offsets in one word name the same thing (R81). -/
theorem regionOf_congr {off off' : Offset} (h : off.toNat / 4 = off'.toNat / 4) : regionOf off = regionOf off' := by
  rw [regionOf, regionOf, wordOffset_eq, wordOffset_eq, h]

/-- Settles O27: the bus uses an offset only for the region it names. -/
theorem offsetLowBitsAreIgnored : Obligations.OffsetLowBitsAreIgnored := by
  intro s off off' v h
  have hregion : regionOf off = regionOf off' := regionOf_congr h
  exact ⟨by rw [busReadWord, busReadWord, hregion], by rw [busWrite, busWrite, hregion]⟩

/-! ### Reserved offsets -/

theorem busReadWord_reserved {off : Offset} (hoff : regionOf off = .reserved) (s : State) : busReadWord off s = 0 := by
  rw [busReadWord, hoff]

theorem busWrite_reserved {off : Offset} (hoff : regionOf off = .reserved) (v : Word) {s : State}
    (hidle : s.phase = .idle) : busWrite off v s = s := by
  rw [busWrite_of_idle hidle, hoff]

/-- Settles O26: the four ranges of R86 are the reserved region. -/
theorem reservedOffsets : Obligations.ReservedOffsets := by
  intro s off v h
  have hoff : regionOf off = .reserved := regionOf_reserved h
  exact ⟨busReadWord_reserved hoff s, busWrite_reserved hoff v, busWrite_of_busy⟩

/-! ### The register words -/

/-- CAPS as a number, when each capacity fits its half (R46). -/
theorem capsWord_toNat {c : Config} (hin : c.inBufBytes < 65536) (hout : c.outBufBytes < 65536) :
    (capsWord c).toNat = c.outBufBytes * 65536 + c.inBufBytes := by
  have hword := (capsWord c).isLt
  obtain ⟨hlow, hhigh⟩ := capsWord_halves hin hout
  rw [BitVec.extractLsb'_toNat, Nat.shiftRight_eq_div_pow] at hlow hhigh
  omega

theorem busyFlag_toNat (s : State) : s.busyFlag.toNat = if s.phase = .busy then 1 else 0 := by
  unfold State.busyFlag
  split <;> simp [*]

/-- Settles O17: each register word reads its field, and acceptance left OUT_LEN 0. -/
theorem registerWordsRead : Obligations.RegisterWordsRead := by
  intro s
  refine ⟨rfl, ?_, BitVec.toNat_setWidth_of_le (by decide), BitVec.toNat_setWidth_of_le (by decide),
    BitVec.toNat_setWidth_of_le (by decide), fun hlegal => ?_, fun n hn => busReadWord_key hn s, fun hflags hbusy => ?_⟩
  · rw [busReadWord_status, statusWord_toNat, busyFlag_toNat]
  · obtain ⟨-, -, hin, -, -, hout⟩ := hlegal
    rw [busReadWord_caps, capsWord_toNat (by omega) (by omega)]
  · obtain ⟨-, -, -, houtLen⟩ := hflags.1 hbusy
    rw [show busReadWord 0x0010 s = s.outLen.setWidth 32 from rfl, houtLen]
    rfl

/-- Settles O20: each register word's write, by the region its offset names. -/
theorem registerWordsWrite : Obligations.RegisterWordsWrite := by
  intro s v
  refine ⟨fun hidle => ⟨?_, ?_, ?_, fun n hn j hj => ?_, ?_, ?_, ?_⟩, fun hbusy off => busWrite_of_busy hbusy⟩
  · exact busWrite_of_idle hidle
  · exact busWrite_of_idle hidle
  · exact busWrite_of_idle hidle
  · have hword : (4 * n + j) / 4 = n := by omega
    have hlane : (4 * n + j) % 4 = j := by omega
    rw [busWrite_key hn v hidle, byteAt_writeKeyWord _ _ _ (by omega), if_pos hword, hlane]
  · exact busWrite_readOnly (.inl regionOf_status) hidle
  · exact busWrite_readOnly (.inr (.inl rfl)) hidle
  · exact busWrite_readOnly (.inr (.inr regionOf_caps)) hidle

/-! ### The IN_BUF window -/

theorem busWrite_inBuf {off : Offset} {a : Nat} (hoff : regionOf off = .inBuf a) (v : Word) {s : State}
    (hidle : s.phase = .idle) :
    busWrite off v s = { s with inBuf := writeWindowWord s.cfg.inBufBytes s.inBuf a v } := by
  rw [busWrite_of_idle hidle, hoff]

/-- Lane `j` of a word read from the IN_BUF window is byte `a + j` of the window (R82, R84). -/
theorem lane_busReadWord_inBuf {off : Offset} {a : Nat} (hoff : regionOf off = .inBuf a) (s : State) {j : Nat}
    (hj : j < 4) : lane (busReadWord off s) j = s.inWindowByte (a + j) := by
  rw [busReadWord, hoff]
  exact lane_le32 (fun j => s.inWindowByte (a + j)) j hj

/-- Settles O23: the window's word is written by lanes below the capacity, and a write touches no other byte. -/
theorem inBufWindowWrite : Obligations.InBufWindowWrite := by
  intro s off v hlow hhigh hwf
  refine ⟨fun hidle => ?_, busWrite_of_busy⟩
  obtain ⟨a, ha, hoff⟩ := regionOf_inBuf hlow hhigh
  refine ⟨_, a, busWrite_inBuf hoff v hidle, ha, rfl, fun j hj hcap => ?_, fun k hk => ?_⟩
  · rw [writeWindowWord_read _ _ _ _ hwf, if_pos (by omega), Nat.add_sub_cancel_left, lane_eq]
  · rw [writeWindowWord_read _ _ _ _ hwf, if_neg (by omega)]

/-- Settles O24: the word of the window, lane by lane. -/
theorem inBufWindowRead : Obligations.InBufWindowRead := by
  intro s off hlow hhigh
  obtain ⟨a, ha, hoff⟩ := regionOf_inBuf hlow hhigh
  exact ⟨a, ha, fun j hj => lane_busReadWord_inBuf hoff s hj⟩

/-! ### The OUT_BUF window -/

theorem busWrite_outBuf {off : Offset} {a : Nat} (hoff : regionOf off = .outBuf a) (v : Word) {s : State}
    (hidle : s.phase = .idle) : busWrite off v s = s := by
  rw [busWrite_of_idle hidle, hoff]

/-- Lane `j` of a word read from the OUT_BUF window is byte `a + j` of the window (R82, R85). -/
theorem lane_busReadWord_outBuf {off : Offset} {a : Nat} (hoff : regionOf off = .outBuf a) (s : State) {j : Nat}
    (hj : j < 4) : lane (busReadWord off s) j = s.outWindowByte (a + j) := by
  rw [busReadWord, hoff]
  exact lane_le32 (fun j => s.outWindowByte (a + j)) j hj

theorem outWindowByte_of_busy {s : State} (hbusy : s.phase = .busy) (i : Nat) :
    s.outWindowByte i = Config.freeByte s.draw i := if_pos hbusy

theorem outWindowByte_of_idle {s : State} (hidle : s.phase = .idle) (i : Nat) :
    s.outWindowByte i = if i < s.cfg.outBufBytes then s.outByte i else 0 := if_neg (by simp [hidle])

/-- Settles O25: the word of the window, lane by lane, in either phase; the host cannot write the window. -/
theorem outBufWindowReadAndWrite : Obligations.OutBufWindowReadAndWrite := by
  intro s off v hlow hhigh
  obtain ⟨a, ha, hoff⟩ := regionOf_outBuf hlow hhigh
  refine ⟨⟨a, ha, fun j hj => ⟨fun hbusy => ?_, fun hidle => ?_⟩⟩, busWrite_outBuf hoff v, busWrite_of_busy⟩
  · exact (lane_busReadWord_outBuf hoff s hj).trans (outWindowByte_of_busy hbusy _)
  · exact (lane_busReadWord_outBuf hoff s hj).trans (outWindowByte_of_idle hidle _)

end Sys2Proof.Machine
end

section
/-! PROOFS. From acceptance to completion: while BUSY a master's turn leaves the accepted command and its operands in
place, so wherever the core's turn stands in the schedule, it comes, and it completes the same command. -/

namespace Sys2Proof.Machine

/-! ### Runs and listed turns -/

/-- For any core, so that the state's type is the one `Core.run` names. -/
theorem coreRun_succ {M : Host.Core} {s s' : M.State} (hstep : M.step s = .next s') (n : Nat) :
    M.run (n + 1) s = M.run n s' := by
  rw [Host.Core.run, hstep]

theorem run_succ {s s' : State} (hstep : step s = .next s') (n : Nat) :
    Sys2Proof.core.run (n + 1) s = Sys2Proof.core.run n s' := coreRun_succ hstep n

theorem run_one {s s' : State} (hstep : step s = .next s') : Sys2Proof.core.run 1 s = .next s' := run_succ hstep 0

theorem nextTurn_listed {s : State} {turn : Turn} {ts : List Turn} (h : s.schedule = turn :: ts) :
    nextTurn s = (turn, s.setSchedule ts) := by
  rw [nextTurn, h]

theorem step_listed_master {s : State} {k : Nat} {ts : List Turn} (h : s.schedule = .master k :: ts) :
    step s = .next (masterTurn k (s.setSchedule ts)) := by
  rw [step, nextTurn_listed h]

theorem step_listed_reset {s : State} {ts : List Turn} (h : s.schedule = .reset :: ts) :
    step s = .next (s.setSchedule ts).assertReset := by
  rw [step, nextTurn_listed h]

theorem coreTurn_of_busy {s : State} (hbusy : s.phase = .busy) : coreTurn s = exec (decode s.curCmd) s := by
  rw [coreTurn, hbusy]

theorem step_listed_core {s : State} {ts : List Turn} (h : s.schedule = .core :: ts) (hbusy : s.phase = .busy) :
    step s = exec (decode s.curCmd) (s.setSchedule ts) := by
  rw [step, nextTurn_listed h]
  exact coreTurn_of_busy hbusy

/-- With no turn listed the core goes first while BUSY (assumption 4). -/
theorem step_unlisted {s : State} (h : s.schedule = []) (hbusy : s.phase = .busy) :
    step s = exec (decode s.curCmd) s := by
  rw [step, nextTurn, h, if_pos hbusy]
  exact coreTurn_of_busy hbusy

/-- Every command completes (R412). -/
theorem exec_completes (i : Instr) (s : State) : ∃ t, exec i s = .next t ∧ t.phase = .idle ∧ t.done = true := by
  obtain ⟨T, -, h⟩ | ⟨e, -, h⟩ := exec_cases i s
  · exact ⟨_, h, rfl, rfl⟩
  · exact ⟨_, h, rfl, rfl⟩

/-! ### The accepted command stays in place (R151) -/

/-- `t` is still BUSY with the command `s` is BUSY with: same word, same operands, same turns to come. -/
structure SameCommand (s t : State) : Prop where
  busy : t.phase = .busy
  curCmd : t.curCmd = s.curCmd
  key : t.key = s.key
  keyLen : t.keyLen = s.keyLen
  inLen : t.inLen = s.inLen
  inBuf : t.inBuf = s.inBuf
  cfg : t.cfg = s.cfg
  schedule : t.schedule = s.schedule

theorem SameCommand.trans {s t u : State} (h : SameCommand s t) (h' : SameCommand t u) : SameCommand s u where
  busy := h'.busy
  curCmd := h'.curCmd.trans h.curCmd
  key := h'.key.trans h.key
  keyLen := h'.keyLen.trans h.keyLen
  inLen := h'.inLen.trans h.inLen
  inBuf := h'.inBuf.trans h.inBuf
  cfg := h'.cfg.trans h.cfg
  schedule := h'.schedule.trans h.schedule

theorem SameCommand.setSchedule {s t : State} (h : SameCommand s t) (ts : List Turn) :
    SameCommand (s.setSchedule ts) (t.setSchedule ts) :=
  { h with schedule := rfl }

/-- While BUSY a master's turn does nothing, reads, or has its write dropped (R92), so the command stays in place. -/
theorem masterTurn_sameCommand (k : Nat) {s : State} (hbusy : s.phase = .busy) : SameCommand s (masterTurn k s) := by
  obtain ⟨ms, h | h | ⟨off, v, h⟩⟩ := masterTurn_cases k s
  case' inr.inr => rw [busWrite_of_busy hbusy] at h
  all_goals rw [h]; exact ⟨hbusy, rfl, rfl, rfl, rfl, rfl, rfl, rfl⟩

/-- Settles O11: by induction on the listed turns; a master's turn leaves the core BUSY with the turns after it, any
other turn ends the command at once. -/
theorem acceptedCommandIsOverInBoundedSteps : Obligations.AcceptedCommandIsOverInBoundedSteps := by
  intro s hbusy
  induction hts : s.schedule generalizing s with
  | nil =>
    obtain ⟨t, hexec, hidle, -⟩ := exec_completes (decode s.curCmd) s
    exact ⟨1, t, by simp, run_one ((step_unlisted hts hbusy).trans hexec), hidle⟩
  | cons turn ts ih =>
    cases turn with
    | master k =>
      have hsame := masterTurn_sameCommand k (s := s.setSchedule ts) hbusy
      obtain ⟨n, t, hn, hrun, hidle⟩ := ih _ hsame.busy hsame.schedule
      exact ⟨n + 1, t, by simpa using hn, (run_succ (step_listed_master hts) n).trans hrun, hidle⟩
    | core =>
      obtain ⟨t, hexec, hidle, -⟩ := exec_completes (decode s.curCmd) (s.setSchedule ts)
      exact ⟨1, t, by simp, run_one ((step_listed_core hts hbusy).trans hexec), hidle⟩
    | reset => exact ⟨1, _, by simp, run_one (step_listed_reset hts), rfl⟩

/-- Listed masters' turns are taken one by one, and the command stays in place, the turns after them to come. -/
theorem run_masters {s : State} {ks : List Nat} {ts : List Turn} (hbusy : s.phase = .busy)
    (hts : s.schedule = ks.map Turn.master ++ ts) :
    ∃ t : State, (∀ n, Sys2Proof.core.run (ks.length + n) s = Sys2Proof.core.run n t) ∧ SameCommand (s.setSchedule ts) t := by
  induction ks generalizing s with
  | nil => exact ⟨s, fun n => by rw [List.length_nil, Nat.zero_add], hbusy, rfl, rfl, rfl, rfl, rfl, rfl, hts⟩
  | cons k ks ih =>
    have hnext : s.schedule = .master k :: (ks.map Turn.master ++ ts) := hts
    have hfirst := masterTurn_sameCommand k (s := s.setSchedule (ks.map Turn.master ++ ts)) hbusy
    obtain ⟨t, hrun, hrest⟩ := ih hfirst.busy hfirst.schedule
    refine ⟨t, fun n => ?_, (hfirst.setSchedule ts).trans hrest⟩
    rw [List.length_cons, Nat.add_right_comm, run_succ (step_listed_master hnext), hrun]

/-- A specified byte of IN_BUF reads the same whatever is drawn for the unspecified ones (R48). -/
theorem inByte_congr {s t : State} {i : Nat} (hbuf : t.inBuf = s.inBuf) (hspec : (s.inBuf.read i).isSome = true) :
    s.inByte i = t.inByte i := by
  obtain ⟨b, hb⟩ := Option.isSome_iff_exists.1 hspec
  rw [State.inByte, State.inByte, hbuf, hb, Option.getD_some, Option.getD_some]

/-- Settles O12: the masters' turns leave the command in place, and its result depends on its operands only. -/
theorem latencyDoesNotChangeTheResult : Obligations.LatencyDoesNotChangeTheResult := by
  intro s ks ts hbusy hspec hts
  obtain ⟨u, hrun, hsame⟩ := run_masters hbusy hts
  have hcore : step u = exec (decode s.curCmd) (u.setSchedule ts) := by
    rw [step_listed_core hsame.schedule hsame.busy, hsame.curCmd]
    rfl
  obtain ⟨t, hexec, hidle, hdone⟩ := exec_completes (decode s.curCmd) (u.setSchedule ts)
  obtain ⟨r, r', hnow, hlate, houtLen, houtBuf, herror, herrCode⟩ :=
    resultDependsOnOperandsOnly (decode s.curCmd) s (u.setSchedule ts) hsame.cfg.symm hsame.keyLen.symm
      hsame.inLen.symm (fun _ _ => by rw [State.setSchedule_key, hsame.key]; rfl)
      (fun i hi => inByte_congr hsame.inBuf (hspec i hi))
  obtain rfl : r' = t := by simpa [hexec] using hlate.symm
  exact ⟨r', r, (hrun 1).trans (run_one (hcore.trans hexec)), hnow, hidle, hdone, houtLen.symm, houtBuf.symm,
    herror.symm, herrCode.symm⟩

end Sys2Proof.Machine
end

section
/-! PROOFS. The encoding: a word is its three fields, so a command's word holds all that decoding saw; hence encoding
and decoding undo each other, and the legal words are the words of the four legal commands. -/

namespace Sys2Proof

/-! ### A word and its fields (30_encoding.md R121) -/

/-- The fields of a word, put together again, are the word: they cover all 32 bits. -/
theorem fields_append (w : Word) : rsvdField w ++ algField w ++ opField w = w := by
  apply BitVec.eq_of_getLsbD_eq
  intro i hi
  simp only [rsvdField, algField, opField, BitVec.getLsbD_append, BitVec.getLsbD_extractLsb']
  interval_cases i <;> rfl

theorem commandWord_of_fields {w : Word} {op alg : BitVec 4} (hrsvd : rsvdField w = 0)
    (hfields : opField w = op ∧ algField w = alg) : commandWord op alg = w := by
  rw [commandWord, ← hrsvd, ← hfields.1, ← hfields.2, fields_append]

theorem mem_legalWords_iff (w : Word) :
    w ∈ legalWords ↔ w = 0x00000001 ∨ w = 0x00000011 ∨ w = 0x00000002 ∨ w = 0x00000012 := by
  simp [legalWords]

/-! ### Encoding what was decoded -/

/-- Each branch of the decoder fixes all three fields of the word, or keeps the word. -/
theorem encode_decode (w : Word) : encode (decode w) = w := by
  unfold decode
  split_ifs with hrsvd hencAes hencSm4 hdecAes hdecSm4
  · rfl
  · exact commandWord_of_fields (not_not.1 hrsvd) hencAes
  · exact commandWord_of_fields (not_not.1 hrsvd) hencSm4
  · exact commandWord_of_fields (not_not.1 hrsvd) hdecAes
  · exact commandWord_of_fields (not_not.1 hrsvd) hdecSm4
  · rfl

theorem wellFormed_illegal_iff (w : Word) : (Instr.illegal w).wellFormed = true ↔ w ∉ legalWords := by
  simp [Instr.wellFormed]

/-- A word that decodes to a legal command is the word of that command, so any other word is illegal (R126). -/
theorem decode_of_not_legal {w : Word} (hw : w ∉ legalWords) : decode w = .illegal w := by
  have hword : encode (decode w) = w := encode_decode w
  cases hdec : decode w <;> rw [hdec] at hword
  case illegal v => exact congrArg Instr.illegal hword
  all_goals exact absurd (hword ▸ by decide) hw

/-- The decoder's answer is illegal only for a word that is not one of the four. -/
theorem decode_wellFormed (w : Word) : (decode w).wellFormed = true := by
  by_cases hw : w ∈ legalWords
  · rcases (mem_legalWords_iff w).1 hw with rfl | rfl | rfl | rfl <;> rfl
  · rw [decode_of_not_legal hw]
    exact (wellFormed_illegal_iff w).2 hw

/-- Settles O3: no bit is dropped, and the four legal words give legal commands. -/
theorem encodeOfDecodeIsTheWord : Obligations.EncodeOfDecodeIsTheWord :=
  fun w => ⟨encode_decode w, decode_wellFormed w⟩

/-! ### Decoding what was encoded -/

theorem decode_encode {i : Instr} (hwf : i.wellFormed = true) : decode (encode i) = i := by
  cases i with
  | encAes => rfl
  | encSm4 => rfl
  | decAes => rfl
  | decSm4 => rfl
  | illegal w => exact decode_of_not_legal ((wellFormed_illegal_iff w).1 hwf)

/-- Settles O2: an illegal command's word is no legal word, and four bytes are their word. -/
theorem decodeOfEncodeIsTheCommand : Obligations.DecodeOfEncodeIsTheCommand := by
  intro i rest hwf
  have hword : decode (encode i) = i := decode_encode hwf
  exact ⟨hword, (Machine.decodeBytes_lanes (encode i) rest).trans (by rw [hword])⟩

theorem decode_eq_iff {i : Instr} (hwf : i.wellFormed = true) (w : Word) : decode w = i ↔ w = encode i := by
  constructor
  · rintro rfl
    exact (encode_decode w).symm
  · rintro rfl
    exact decode_encode hwf

/-! ### The legal words and the reserved field values -/

theorem decode_eq_illegal_iff (w : Word) : decode w = .illegal w ↔ w ∉ legalWords :=
  ⟨fun h => (wellFormed_illegal_iff w).1 (h ▸ decode_wellFormed w), decode_of_not_legal⟩

/-- Settles O4: the word of each legal command, and the words that are none of them. -/
theorem legalWordsAreExactlyFour : Obligations.LegalWordsAreExactlyFour := by
  intro w
  refine ⟨decode_eq_iff rfl w, decode_eq_iff rfl w, decode_eq_iff rfl w, decode_eq_iff rfl w, ?_⟩
  rw [decode_eq_illegal_iff, mem_legalWords_iff]
  simp only [not_or]

/-- The field values of the legal words (R122 to R124). -/
theorem legalWords_fields {w : Word} (hw : w ∈ legalWords) :
    w.toNat / 256 = 0 ∧ (w.toNat % 16 = 1 ∨ w.toNat % 16 = 2) ∧ w.toNat / 16 % 16 < 2 := by
  rcases (mem_legalWords_iff w).1 hw with rfl | rfl | rfl | rfl <;> decide

/-- Settles O5: no legal word has a reserved value in any of its fields. -/
theorem reservedFieldValuesAreIllegal : Obligations.ReservedFieldValuesAreIllegal := by
  intro w
  refine ⟨fun hrsvd => decode_of_not_legal fun hw => ?_, fun hop => decode_of_not_legal fun hw => ?_,
    fun halg => decode_of_not_legal fun hw => ?_⟩
  · obtain ⟨hrsvd0, -, -⟩ := legalWords_fields hw
    exact hrsvd hrsvd0
  · obtain ⟨-, hop12, -⟩ := legalWords_fields hw
    omega
  · obtain ⟨-, -, halg01⟩ := legalWords_fields hw
    omega

/-- Settles O1: the four rows of R125, and five words outside them. -/
theorem tableWordsDecodeToTheirCommands : Obligations.TableWordsDecodeToTheirCommands :=
  ⟨decode_encode (i := .encAes) rfl, decode_encode (i := .encSm4) rfl, decode_encode (i := .decAes) rfl,
    decode_encode (i := .decSm4) rfl, decode_of_not_legal (by decide), decode_of_not_legal (by decide),
    decode_of_not_legal (by decide), decode_of_not_legal (by decide), decode_of_not_legal (by decide)⟩

end Sys2Proof
end

section
/-! PROOFS. Host programs: what each statement does in a turn, what the pseudo-statements stand for, and that the words
READOUT reads unpack to the result. -/

namespace Sys2Proof.Machine

/-! ### A running program's turn (30_encoding.md R129) -/

theorem masterStep_line {m : Master} {l : Line} (s : State) (hrun : m.status = .running)
    (hpending : m.pendingReads = []) (hline : m.prog[m.pc]? = some l) : masterStep m s = runStmt l.stmt m s := by
  unfold masterStep
  rw [hrun, hpending, hline]

theorem masterStep_pastEnd {m : Master} (s : State) (hrun : m.status = .running) (hpending : m.pendingReads = [])
    (hline : m.prog[m.pc]? = none) : masterStep m s = ({ m with status := .ended }, s) := by
  unfold masterStep
  rw [hrun, hpending, hline]

theorem masterStep_pending {m : Master} {off : Offset} {rest : List Offset} (s : State) (hrun : m.status = .running)
    (hpending : m.pendingReads = off :: rest) :
    masterStep m s = ({ m.note (busReadWord off s) with pendingReads := rest }, s.nextDraw) := by
  unfold masterStep
  rw [hrun, hpending]

theorem masterStep_notRunning {m : Master} (s : State) (hstop : m.status ≠ .running) : masterStep m s = (m, s) := by
  unfold masterStep
  cases hstatus : m.status with
  | running => exact absurd hstatus hstop
  | ended => rfl
  | checkFailed => rfl
  | noSuchLabel => rfl

/-! ### Checks, polls and jumps -/

/-- Only a check that reads another word stops a running program. -/
theorem runStmt_r32Check {m : Master} (off : Offset) (v : Word) (s : State) (hrun : m.status = .running) :
    ((runStmt (.r32Check off v) m s).1.status = .running ↔ busReadWord off s = v) ∧
    ((runStmt (.r32Check off v) m s).1.status = .checkFailed ↔ busReadWord off s ≠ v) ∧
    (busReadWord off s = v → (runStmt (.r32Check off v) m s).1.pc = m.pc + 1) := by
  by_cases hword : busReadWord off s = v <;> simp [runStmt, Master.note, Master.advance, hword, hrun]

/-- A poll goes on or stays, and the program keeps running. -/
theorem runStmt_poll {m : Master} (off : Offset) (mask v : Word) (s : State) :
    (runStmt (.poll off mask v) m s).1.pc = (if busReadWord off s &&& mask = v then m.pc + 1 else m.pc) ∧
    (runStmt (.poll off mask v) m s).1.status = m.status := by
  by_cases hword : busReadWord off s &&& mask = v <;> simp [runStmt, Master.note, Master.advance, hword]

theorem labelIndex_eq_some {prog : List Line} {label i : Nat} (hline : (prog[i]?).bind Line.label = some label)
    (hfirst : ∀ j < i, (prog[j]?).bind Line.label ≠ some label) : labelIndex prog label = some i := by
  obtain ⟨l, hl, hlabel⟩ := Option.bind_eq_some_iff.1 hline
  obtain ⟨hi, rfl⟩ := List.getElem?_eq_some_iff.1 hl
  refine List.findIdx?_eq_some_iff_getElem.2 ⟨hi, by simp [hlabel], fun j hj => ?_⟩
  simpa [List.getElem?_eq_getElem (hj.trans hi)] using hfirst j hj

theorem labelIndex_eq_none {prog : List Line} {label : Nat}
    (hnone : ∀ i : Nat, (prog[i]?).bind Line.label ≠ some label) : labelIndex prog label = none := by
  refine List.findIdx?_eq_none_iff.2 fun l hl => ?_
  obtain ⟨i, hi⟩ := List.getElem?_of_mem hl
  simpa [hi] using hnone i

theorem runStmt_jmp_some {m : Master} {label i : Nat} (s : State) (hlabel : labelIndex m.prog label = some i) :
    runStmt (.jmp label) m s = ({ m with pc := i }, s) := by
  rw [runStmt, hlabel]

theorem runStmt_jmp_none {m : Master} {label : Nat} (s : State) (hlabel : labelIndex m.prog label = none) :
    runStmt (.jmp label) m s = ({ m with status := .noSuchLabel }, s) := by
  rw [runStmt, hlabel]

/-- OUT_LEN is the number of bytes READOUT asks for (R130). -/
theorem runStmt_readOut (m : Master) (s : State) :
    runStmt .readOut m s =
      ({ (m.note (busReadWord 0x0010 s)).advance with pendingReads := readOutOffsets s.outLen.toNat }, s.nextDraw) := by
  have hlen : (busReadWord offOutLen s).toNat = s.outLen.toNat := BitVec.toNat_setWidth_of_le (by decide)
  rw [runStmt, hlen]
  rfl

/-! ### SETKEY and LOADIN (R130) -/

/-- Byte `j` of word `n` of a sequence; 0 past its end. -/
theorem wordOfBytes_byte (B : List Byte) (n : Nat) {j : Nat} (hj : j < 4) :
    BitVec.ofNat 8 ((wordOfBytes B n).toNat / 256 ^ j) = if 4 * n + j < B.length then byteAt B (4 * n + j) else 0 := by
  have hlane : lane (wordOfBytes B n) j = byteAt B (4 * n + j) := lane_le32 (fun j => byteAt B (4 * n + j)) j hj
  rw [← lane_eq, hlane]
  split
  · rfl
  · rw [byteAt, List.getD_eq_default _ _ (by omega)]

/-- The writes SETKEY and LOADIN begin with: the first `count` words of a sequence, each to its offset. -/
def wordWrites (off : Nat → Offset) (B : List Byte) (count : Nat) : List Stmt :=
  (List.range count).map fun n => .w32 (off n) (wordOfBytes B n)

theorem setKey_eq (k : List Byte) :
    setKey k = wordWrites offKey k (min ((k.length + 3) / 4) 8) ++ [.w32 offKeyLen (BitVec.ofNat 32 k.length)] := rfl

theorem loadIn_eq (b : List Byte) :
    loadIn b = wordWrites (fun n => offInBuf (4 * n)) b (min ((b.length + 3) / 4) 1024) ++
      [.w32 offInLen (BitVec.ofNat 32 b.length)] := rfl

theorem wordWrites_length (off : Nat → Offset) (B : List Byte) (count : Nat) :
    (wordWrites off B count).length = count := by
  simp [wordWrites]

/-- Write `n` puts word `n` of the sequence at its offset, missing bytes 0. -/
theorem wordWrites_get {off : Nat → Offset} {B : List Byte} {count n : Nat}
    (hn : n < (wordWrites off B count).length) :
    ∃ v : Word, (wordWrites off B count)[n]? = some (.w32 (off n) v) ∧
      ∀ j < 4, BitVec.ofNat 8 (v.toNat / 256 ^ j) = if 4 * n + j < B.length then byteAt B (4 * n + j) else 0 := by
  rw [wordWrites_length] at hn
  exact ⟨wordOfBytes B n, by simp [wordWrites, hn], fun j hj => wordOfBytes_byte B n hj⟩

/-! ### The words READOUT reads (R131) -/

/-- The lanes of `n` words, in order, are `4n` bytes. -/
theorem flatMap_lanes (word : Nat → Word) (n : Nat) :
    (((List.range n).map word).flatMap fun w => [lane w 0, lane w 1, lane w 2, lane w 3]) =
      (List.range (4 * n)).map fun i => lane (word (i / 4)) (i % 4) := by
  induction n with
  | zero => rfl
  | succ n ih =>
    rw [List.range_succ, List.map_append, List.flatMap_append, ih, Nat.mul_succ, List.range_add, List.map_append]
    simp [List.range_succ, Nat.mul_add_div]

/-- Words whose lanes are the bytes of a sequence unpack to it, whatever the lanes past its end hold. -/
theorem unpackResult_eq {T : List Byte} {word : Nat → Word}
    (hbytes : ∀ k j, j < 4 → 4 * k + j < T.length → lane (word k) j = byteAt T (4 * k + j)) :
    unpackResult T.length ((List.range ((T.length + 3) / 4)).map word) = T := by
  rw [unpackResult, flatMap_lanes]
  refine List.ext_getElem (by simp; omega) fun i hi hiT => ?_
  have hlane := hbytes (i / 4) (i % 4) (by omega) (by omega)
  rw [Nat.div_add_mod] at hlane
  simpa [byteAt_eq _ _ hiT] using hlane

/-- The word at OUT_BUF+4k names the window's byte 4k. -/
theorem regionOf_outBufWord {k : Nat} (hk : k < 4096) :
    regionOf (BitVec.ofNat 16 (0x4000 + 4 * k)) = .outBuf (4 * k) := by
  have hoff : (BitVec.ofNat 16 (0x4000 + 4 * k)).toNat = 0x4000 + 4 * k := Nat.mod_eq_of_lt (by omega)
  obtain ⟨a, ha, hregion⟩ := regionOf_outBuf (off := BitVec.ofNat 16 (0x4000 + 4 * k)) (by omega) (by omega)
  rw [hregion, show a = 4 * k by omega]

/-- While IDLE a specified byte of OUT_BUF below the capacity reads as it is, whatever is drawn (R49, R85). -/
theorem outWindowByte_of_specified {s : State} {i : Nat} {b : Byte} (hidle : s.phase = .idle)
    (hcap : i < s.cfg.outBufBytes) (hread : s.outBuf.read i = some b) : s.outWindowByte i = b := by
  rw [outWindowByte_of_idle hidle, if_pos hcap, State.outByte, hread, Option.getD_some]

/-- While IDLE the words of OUT_BUF unpack to the result it holds, each word read under a draw of its own. -/
theorem unpackResult_busReadWords {s : State} {T : List Byte} (draws : Nat → Nat) (hlegal : s.cfg.legal)
    (hidle : s.phase = .idle) (hlen : T.length ≤ s.cfg.outBufBytes)
    (hread : ∀ i < T.length, s.outBuf.read i = some (byteAt T i)) :
    unpackResult T.length ((List.range ((T.length + 3) / 4)).map fun k =>
      busReadWord (BitVec.ofNat 16 (0x4000 + 4 * k)) { s with draw := draws k }) = T := by
  obtain ⟨-, -, -, -, -, hcap⟩ := hlegal
  refine unpackResult_eq fun k j hj hi => ?_
  rw [lane_busReadWord_outBuf (regionOf_outBufWord (by omega)) _ hj]
  exact outWindowByte_of_specified hidle (hi.trans_le hlen) (hread _ hi)

/-- Settles O14: the line a running program stands at, statement by statement, then the turns that run no line, then the
pseudo-statements and the unpacking. -/
theorem hostStatementsDoTheirTransactions : Obligations.HostStatementsDoTheirTransactions := by
  refine ⟨fun m s l off v mask lab hrun hpending hline => ?_, fun m s => masterStep_pastEnd s,
    fun m s off rest => masterStep_pending s, fun m s => masterStep_notRunning s, fun k => ?_, fun b => ?_,
    fun i => rfl, fun s T draws => unpackResult_busReadWords draws⟩
  · rw [masterStep_line s hrun hpending hline]
    refine ⟨?_, ?_, ?_, ?_, ?_, ?_, ?_⟩ <;> intro hst <;> rw [hst]
    · rfl
    · rfl
    · obtain ⟨hgo, hstop, hpc⟩ := runStmt_r32Check off v s hrun
      exact ⟨hgo, hstop, hpc, rfl⟩
    · obtain ⟨hpc, hstatus⟩ := runStmt_poll off mask v s (m := m)
      exact ⟨hpc, hstatus.trans hrun, rfl⟩
    · exact ⟨fun i hlabel hfirst => runStmt_jmp_some s (labelIndex_eq_some hlabel hfirst),
        fun hnone => runStmt_jmp_none s (labelIndex_eq_none hnone)⟩
    · rfl
    · exact runStmt_readOut m s
  · exact ⟨_, setKey_eq k, wordWrites_length _ _ _, fun n => wordWrites_get⟩
  · exact ⟨_, loadIn_eq b, wordWrites_length _ _ _, fun n => wordWrites_get⟩

end Sys2Proof.Machine
end

section
/-! PROOFS. The units undo each other: unpadding undoes padding, base64 decoding undoes encoding, each block cipher is
undone by its inverse, and so is the chaining of their blocks. -/

namespace Sys2Proof.Machine

/-! ### Padding (41_pkcs7.md) -/

/-- The decoder succeeds exactly for a marker from 1 to 16, and strips that many bytes (R202). -/
theorem pkcs7Unpad_eq_ok_iff {M T : List Byte} :
    pkcs7Unpad M = .ok T ↔ 1 ≤ padMarker M ∧ padMarker M ≤ 16 ∧ T = M.take (M.length - padMarker M) := by
  unfold pkcs7Unpad
  simp only
  split
  case isTrue hbad => exact ⟨nofun, fun ⟨_, _, _⟩ => by omega⟩
  case isFalse hgood => exact ⟨fun h => ⟨by omega, by omega, (Except.ok.inj h).symm⟩, fun ⟨_, _, hT⟩ => hT ▸ rfl⟩

/-- The marker of a padded plaintext is the number of bytes appended (R200). -/
theorem padMarker_pkcs7Pad (P : List Byte) : padMarker (pkcs7Pad P) = padCount P.length := by
  have hpos := padCount_pos P.length
  have hle := padCount_le P.length
  have hlast : P.length + padCount P.length - 1 - P.length < padCount P.length := by omega
  rw [padMarker, pkcs7Pad_length, pkcs7Pad, byteAt, List.getD_append_right _ _ _ _ (by omega),
    List.getD_replicate _ hlast, BitVec.toNat_ofNat]
  omega

/-- Unpadding undoes padding (R205). -/
theorem pkcs7Unpad_pkcs7Pad (P : List Byte) : pkcs7Unpad (pkcs7Pad P) = .ok P := by
  rw [pkcs7Unpad_eq_ok_iff, padMarker_pkcs7Pad, pkcs7Pad_length, Nat.add_sub_cancel, pkcs7Pad, List.take_left]
  exact ⟨padCount_pos _, padCount_le _, rfl⟩

/-- The padded length (R201). -/
theorem pkcs7Pad_length_eq (P : List Byte) : (pkcs7Pad P).length = 16 * (P.length / 16 + 1) := by
  rw [pkcs7Pad_length, padCount]
  omega

/-! ### Base64 (45_base64.md) -/

/-- The third and fourth part of the group of a single byte are 0, as are the pads that stand for them. -/
theorem groupValue_oneByte_parts : ∀ b0 : Byte,
    (groupValue b0 0 0).extractLsb' 6 6 = 0 ∧ (groupValue b0 0 0).extractLsb' 0 6 = 0 := by decide +kernel

/-- The fourth part of the group of two bytes is 0. -/
theorem groupValue_twoBytes_part (b0 b1 : Byte) : (groupValue b0 b1 0).extractLsb' 0 6 = 0 := by
  apply BitVec.eq_of_getLsbD_eq
  intro i hi
  unfold groupValue
  simp only [BitVec.getLsbD_append, BitVec.getLsbD_extractLsb']
  interval_cases i <;> rfl

@[simp] theorem valOrZero_base64Char (v : BitVec 6) : valOrZero (base64Char v) = v := by simp [valOrZero]

/-- Decoding the group of a single byte. -/
theorem groupBytes_oneByte (b0 : Byte) :
    groupBytes (groupChars (groupValue b0 0 0)).1 (groupChars (groupValue b0 0 0)).2.1 padChar padChar = [b0] := by
  obtain ⟨h2, h3⟩ := groupValue_oneByte_parts b0
  have hvalue := groupParts_append (groupValue b0 0 0)
  rw [h2, h3] at hvalue
  simp only [groupChars, groupBytes, valOrZero_padChar, valOrZero_base64Char, hvalue, groupValue_bytes]
  rfl

/-- Decoding the group of two bytes. -/
theorem groupBytes_twoBytes (b0 b1 : Byte) :
    groupBytes (groupChars (groupValue b0 b1 0)).1 (groupChars (groupValue b0 b1 0)).2.1
      (groupChars (groupValue b0 b1 0)).2.2.1 padChar = [b0, b1] := by
  have hvalue := groupParts_append (groupValue b0 b1 0)
  rw [groupValue_twoBytes_part] at hvalue
  simp only [groupChars, groupBytes, valOrZero_padChar, valOrZero_base64Char, hvalue, groupValue_bytes, padsInGroup,
    base64Char_ne_padChar, if_false, if_true]
  rfl

theorem decodeGroups_base64Encode (B : List Byte) : decodeGroups (base64Encode B) = B := by
  fun_induction base64Encode B with
  | case1 => rfl
  | case2 b0 c => exact congrArg (· ++ []) (groupBytes_oneByte b0)
  | case3 b0 b1 c => exact congrArg (· ++ []) (groupBytes_twoBytes b0 b1)
  | case4 b0 b1 b2 rest c ih => rw [decodeGroups, ih, groupBytes_groupChars]; rfl

/-- A group with more text after it is not the last, so it must be four characters (R344). -/
theorem base64Valid_group {T : List Byte} (c0 c1 c2 c3 : Byte) (hT : T ≠ []) :
    base64Valid (c0 :: c1 :: c2 :: c3 :: T) = (innerGroupOk c0 c1 c2 c3 && base64Valid T) := by
  cases T with
  | nil => exact absurd rfl hT
  | cons c T => rfl

theorem base64Valid_base64Encode (B : List Byte) : base64Valid (base64Encode B) = true := by
  fun_induction base64Encode B with
  | case1 => rfl
  | case2 b0 c => simp [base64Valid, lastGroupOk, c, groupChars]
  | case3 b0 b1 c => simp [base64Valid, lastGroupOk, c, groupChars]
  | case4 b0 b1 b2 rest c ih =>
    by_cases hrest : base64Encode rest = []
    · simp [hrest, base64Valid, lastGroupOk, c, groupChars]
    · simp [base64Valid_group _ _ _ _ hrest, ih, innerGroupOk, c, groupChars]

/-- Decoding undoes encoding (R348). -/
theorem base64Decode_base64Encode (B : List Byte) : base64Decode (base64Encode B) = .ok B := by
  rw [base64Decode, if_pos (base64Valid_base64Encode B), decodeGroups_base64Encode]

/-- An encoded text is made of the 64 characters and the pad (R340, R342). -/
theorem mem_base64Encode {B : List Byte} {c : Byte} (hc : c ∈ base64Encode B) :
    (∃ v, c = base64Char v) ∨ c = padChar := by
  fun_induction base64Encode B with
  | case1 => simp at hc
  | case2 b0 g =>
    simp only [g, groupChars, List.mem_cons, List.not_mem_nil, or_false] at hc
    rcases hc with h | h | h | h
    exacts [.inl ⟨_, h⟩, .inl ⟨_, h⟩, .inr h, .inr h]
  | case3 b0 b1 g =>
    simp only [g, groupChars, List.mem_cons, List.not_mem_nil, or_false] at hc
    rcases hc with h | h | h | h
    exacts [.inl ⟨_, h⟩, .inl ⟨_, h⟩, .inl ⟨_, h⟩, .inr h]
  | case4 b0 b1 b2 rest g ih =>
    simp only [g, groupChars, List.mem_cons] at hc
    rcases hc with h | h | h | h | h
    exacts [.inl ⟨_, h⟩, .inl ⟨_, h⟩, .inl ⟨_, h⟩, .inl ⟨_, h⟩, ih h]

theorem base64Char_ascii : ∀ v : BitVec 6, (base64Char v).toNat < 128 := by decide

/-- An encoded text is ASCII (40_commands.md R159). -/
theorem base64Encode_ascii {B : List Byte} {c : Byte} (hc : c ∈ base64Encode B) : c.toNat < 128 := by
  obtain ⟨v, rfl⟩ | rfl := mem_base64Encode hc
  · exact base64Char_ascii v
  · decide

/-! ### Rounds and inverse rounds -/

/-- Where each inverse round `g` undoes its round `f` up to `h`, the inverse rounds in reverse order undo all the
rounds up to `h`. -/
theorem foldl_reverse_undo {σ κ τ : Type} {f : σ → κ → σ} {g : τ → κ → τ} {h : σ → τ}
    (hround : ∀ s k, g (h (f s k)) k = h s) (ks : List κ) (s : σ) :
    ks.reverse.foldl g (h (ks.foldl f s)) = h s := by
  induction ks generalizing s with
  | nil => rfl
  | cons k ks ih =>
    rw [List.reverse_cons, List.foldl_append, List.foldl_cons, List.foldl_nil, List.foldl_cons, ih]
    exact hround s k

/-! ### AES (43_aes.md) -/

theorem gfMulBits_xor (n : Nat) (a b c : Byte) : gfMulBits n a (b ^^^ c) = gfMulBits n a b ^^^ gfMulBits n a c := by
  induction n generalizing a b c with
  | zero => simp [gfMulBits]
  | succ n ih =>
    rw [gfMulBits, gfMulBits, gfMulBits, xtime_xor, ih]
    split
    · ac_rfl
    · simp

/-- Multiplication distributes over addition in the second operand (R252). -/
theorem gfMul_xor_right (a b c : Byte) : gfMul a (b ^^^ c) = gfMul a b ^^^ gfMul a c := gfMulBits_xor 8 a b c

theorem mixColumn_xorWord (a b : AesWord) : mixColumn (xorWord a b) = xorWord (mixColumn a) (mixColumn b) := by
  simp only [mixColumn, xorWord, gfMul_xor_right, AesWord.mk.injEq]
  refine ⟨?_, ?_, ?_, ?_⟩ <;> ac_rfl

theorem invMixColumn_xorWord (a b : AesWord) :
    invMixColumn (xorWord a b) = xorWord (invMixColumn a) (invMixColumn b) := by
  simp only [invMixColumn, xorWord, gfMul_xor_right, AesWord.mk.injEq]
  refine ⟨?_, ?_, ?_, ?_⟩ <;> ac_rfl

/-- The products MixColumns and InvMixColumns use, as sums of powers of xtime (R253). -/
theorem gfMul_constants (b : Byte) :
    gfMul 0x02 b = xtime b ∧ gfMul 0x03 b = b ^^^ xtime b ∧ gfMul 0x09 b = b ^^^ xtime (xtime (xtime b)) ∧
    gfMul 0x0b b = b ^^^ xtime b ^^^ xtime (xtime (xtime b)) ∧
    gfMul 0x0d b = b ^^^ xtime (xtime b) ^^^ xtime (xtime (xtime b)) ∧
    gfMul 0x0e b = xtime b ^^^ xtime (xtime b) ^^^ xtime (xtime (xtime b)) := by
  simp [gfMul, gfMulBits, BitVec.xor_assoc]

theorem xtime_zero : xtime 0 = 0 := rfl

/-- A column is the sum of its four bytes, each in its place. -/
theorem xorWord_bytes (a : AesWord) :
    a = xorWord (xorWord ⟨a.b0, 0, 0, 0⟩ ⟨0, a.b1, 0, 0⟩) (xorWord ⟨0, 0, a.b2, 0⟩ ⟨0, 0, 0, a.b3⟩) := by
  simp [xorWord]

/-- InvMixColumns undoes MixColumns on a column of one byte: the powers of xtime cancel in pairs, all but the byte
itself. -/
theorem invMixColumn_mixColumn_byte (b : Byte) :
    invMixColumn (mixColumn ⟨b, 0, 0, 0⟩) = ⟨b, 0, 0, 0⟩ ∧ invMixColumn (mixColumn ⟨0, b, 0, 0⟩) = ⟨0, b, 0, 0⟩ ∧
    invMixColumn (mixColumn ⟨0, 0, b, 0⟩) = ⟨0, 0, b, 0⟩ ∧ invMixColumn (mixColumn ⟨0, 0, 0, b⟩) = ⟨0, 0, 0, b⟩ := by
  have hswap : ∀ x y z : Byte, x ^^^ (y ^^^ z) = y ^^^ (x ^^^ z) := fun x y z => by ac_rfl
  simp only [invMixColumn, mixColumn, gfMul_constants, xtime_xor, xtime_zero, BitVec.xor_zero, BitVec.zero_xor,
    BitVec.xor_assoc, BitVec.xor_comm, hswap, xor_cancel_left, BitVec.xor_self, and_self]

/-- InvMixColumns undoes MixColumns: both are linear, so the columns of one byte suffice (R263). -/
@[simp] theorem invMixColumn_mixColumn (a : AesWord) : invMixColumn (mixColumn a) = a := by
  obtain ⟨h0, -, -, -⟩ := invMixColumn_mixColumn_byte a.b0
  obtain ⟨-, h1, -, -⟩ := invMixColumn_mixColumn_byte a.b1
  obtain ⟨-, -, h2, -⟩ := invMixColumn_mixColumn_byte a.b2
  obtain ⟨-, -, -, h3⟩ := invMixColumn_mixColumn_byte a.b3
  rw [xorWord_bytes a]
  simp only [mixColumn_xorWord, invMixColumn_xorWord, h0, h1, h2, h3]

@[simp] theorem invMixColumns_mixColumns (s : AesState) : invMixColumns (mixColumns s) = s := by
  simp [invMixColumns, mixColumns, mapColumns]

/-- A round, with the substitution and the shift of the round after it, is undone up to its own substitution and shift
by the inverse round (R267, R268). -/
theorem aesInvRound_aesRound (w : List AesWord) (s : AesState) (rnd : Nat) :
    aesInvRound w (shiftRows (subBytes (aesRound w s rnd))) rnd = shiftRows (subBytes s) := by
  simp [aesInvRound, aesRound]

/-- The inverse AES cipher undoes the forward one (R268), whatever words the key schedule gives. -/
theorem aesDecrypt_aesEncrypt (K : List Byte) {B : List Byte} (hB : B.length = 16) :
    aesDecrypt K (aesEncrypt K B) = B := by
  have hrounds := foldl_reverse_undo (h := fun s => shiftRows (subBytes s)) (aesInvRound_aesRound (keyExpansion K))
  simp only [aesDecrypt, aesEncrypt, loadBlock_storeBlock, addRoundKey_addRoundKey, hrounds, invShiftRows_shiftRows,
    invSubBytes_subBytes]
  exact storeBlock_loadBlock B hB

/-! ### SM4 (44_sm4.md) -/

/-- The inverse SM4 cipher undoes the forward one (R310). -/
theorem sm4Decrypt_sm4Encrypt (K : List Byte) {B : List Byte} (hB : B.length = 16) :
    sm4Decrypt K (sm4Encrypt K B) = B := by
  rw [sm4Decrypt, sm4Encrypt, sm4Cipher, sm4Cipher, sm4Load_sm4Store, foldl_reverse_undo sm4Round_reverse,
    sm4Reverse_sm4Reverse, sm4Store_sm4Load B hB]

/-! ### CBC (42_cbc.md) -/

theorem blockDecrypt_blockEncrypt (alg : Alg) (K : List Byte) {B : List Byte} (hB : B.length = 16) :
    blockDecrypt alg K (blockEncrypt alg K B) = B := by
  cases alg with
  | aes => exact aesDecrypt_aesEncrypt K hB
  | sm4 => exact sm4Decrypt_sm4Encrypt K hB

/-- Block by block: the inverse cipher gives the xored block, and xoring again with the chaining value gives the
block. -/
theorem cbcDecryptLoop_cbcEncryptLoop (alg : Alg) (K : List Byte) {n : Nat} {cv M : List Byte} (hcv : cv.length = 16)
    (hM : M.length = 16 * n) : cbcDecryptLoop alg K n cv (cbcEncryptLoop alg K n cv M) = M := by
  induction n generalizing cv M with
  | zero => exact (List.eq_nil_of_length_eq_zero hM).symm
  | succ n ih =>
    have hblock : (M.take 16).length = cv.length := by rw [List.length_take]; omega
    have hrest : (M.drop 16).length = 16 * n := by rw [List.length_drop]; omega
    have hc := blockEncrypt_length alg K (xorBytes (M.take 16) cv)
    rw [cbcEncryptLoop, cbcDecryptLoop, List.take_left' hc, List.drop_left' hc, ih hc hrest,
      blockDecrypt_blockEncrypt alg K (by rw [xorBytes_length]; omega), xorBytes_cancel _ _ hblock,
      List.take_append_drop]

/-- CBC decryption undoes CBC encryption of whole blocks (R225). -/
theorem cbcDecrypt_cbcEncrypt (alg : Alg) (K : List Byte) {IV M : List Byte} (hIV : IV.length = 16)
    (hM : M.length % 16 = 0) : cbcDecrypt alg K IV (cbcEncrypt alg K IV M) = M := by
  rw [cbcDecrypt, cbcEncrypt, cbcEncryptLoop_length, Nat.mul_div_cancel_left _ (by decide)]
  exact cbcDecryptLoop_cbcEncryptLoop alg K hIV (by omega)

theorem cbcDecrypt_length (alg : Alg) (K : List Byte) {IV C : List Byte} (hIV : IV.length = 16)
    (hC : C.length % 16 = 0) : (cbcDecrypt alg K IV C).length = C.length := by
  rw [cbcDecrypt, cbcDecryptLoop_length alg K _ _ _ hIV (by omega)]
  omega

end Sys2Proof.Machine
end

section
/-! PROOFS. The commands: when each command's `Run` succeeds and with what result, what a completion makes of it, the
frame, the illegal words, and the round trip of a decryption after an encryption. -/

namespace Sys2Proof.Machine

/-! ### The turn that completes, and acceptance (40_commands.md R150 to R153) -/

/-- A listed core's turn while IDLE only leaves the schedule (assumption 12). -/
theorem step_listed_core_idle {s : State} {ts : List Turn} (h : s.schedule = .core :: ts) (hidle : s.phase = .idle) :
    step s = .next (s.setSchedule ts) := by
  rw [step, nextTurn_listed h]
  simp only [coreTurn, State.setSchedule_phase, hidle]

/-- Settles O6: the core's turn, listed or not, runs the command while BUSY. -/
theorem stepRunsTheDecodedCommand : Obligations.StepRunsTheDecodedCommand := by
  rintro s i ts rfl
  exact ⟨fun hbusy hts => step_listed_core hts hbusy, fun hbusy hts => step_unlisted hts hbusy,
    fun hidle hts => step_listed_core_idle hts hidle⟩

/-- Settles O10: a step that stays BUSY is a master's turn, and that leaves the accepted command in place. -/
theorem operandsAreFrozenWhileBusy : Obligations.OperandsAreFrozenWhileBusy := by
  intro s t hstep hbusy hstays
  obtain ⟨ts, ⟨-, hs⟩ | ⟨hidle, -⟩ | ⟨k, hs⟩ | hs⟩ := step_cases s
  · obtain ⟨u, hexec, hidle, -⟩ := exec_completes (decode s.curCmd) (s.setSchedule ts)
    cases (hs.trans hexec).symm.trans hstep
    simp [hidle] at hstays
  · simp [hbusy] at hidle
  · cases hs.symm.trans hstep
    have hsame := masterTurn_sameCommand k (s := s.setSchedule ts) hbusy
    exact ⟨hsame.curCmd, hsame.key, hsame.keyLen, hsame.inLen, hsame.inBuf, hsame.cfg⟩
  · cases hs.symm.trans hstep
    simp at hstays

theorem regionOf_cmd {off : Offset} (hoff : off.toNat < 4) : regionOf off = .cmd :=
  (regionAt_cmd_iff _).2 (by rw [wordOffset_eq]; omega)

theorem busWrite_cmd {off : Offset} {w : Word} {s : State} (hoff : off.toNat < 4) (hidle : s.phase = .idle) :
    busWrite off w s = s.accept w := by
  rw [busWrite_of_idle hidle, regionOf_cmd hoff]

/-- STATUS.BUSY is bit 0 of STATUS (R37, R87). -/
theorem statusWord_bit_zero (s : State) : s.statusWord.getLsbD 0 = s.busyFlag := by
  rw [BitVec.getLsbD, Nat.testBit_zero, statusWord_toNat]
  cases s.busyFlag <;> simp <;> omega

/-- Settles O15: acceptance writes its fields, after which STATUS.BUSY is set and OUT_BUF cannot be read. -/
theorem acceptanceOfACommandWord : Obligations.AcceptanceOfACommandWord := by
  intro s off w hoff
  refine ⟨fun hidle => ?_, busWrite_of_busy⟩
  rw [busWrite_cmd hoff hidle]
  refine ⟨rfl, ?_, fun a j ha hcap hj => ?_⟩
  · rw [busReadWord_status, statusWord_bit_zero]
    rfl
  · obtain ⟨k, rfl⟩ := Nat.dvd_of_mod_eq_zero ha
    exact (lane_busReadWord_outBuf (regionOf_outBufWord (by omega)) (s.accept w) hj).trans
      (outWindowByte_of_busy rfl _)

/-! ### What a completion makes of a result -/

theorem runOf_encCommand (alg : Alg) (s : State) : runOf (encCommand alg) s = runEncrypt alg s := by cases alg <;> rfl

theorem runOf_decCommand (alg : Alg) (s : State) : runOf (decCommand alg) s = runDecrypt alg s := by cases alg <;> rfl

theorem exec_of_ok {i : Instr} {s : State} {T : List Byte} (hrun : runOf i s = .ok T) :
    exec i s = .next (s.succeed T) := by
  rw [exec_eq_complete, hrun, complete]

theorem exec_of_error {i : Instr} {s : State} {e : CommandError} (hrun : runOf i s = .error e) :
    exec i s = .next (s.raise e) := by
  rw [exec_eq_complete, hrun, complete]

/-- The state a command completes in is the success or the failure its `Run` gives. -/
theorem exec_inversion {i : Instr} {s t : State} (hexec : exec i s = .next t) :
    (∃ T, runOf i s = .ok T ∧ t = s.succeed T) ∨ ∃ e, runOf i s = .error e ∧ t = s.raise e := by
  obtain ⟨T, hrun, h⟩ | ⟨e, hrun, h⟩ := exec_cases i s
  · cases h.symm.trans hexec
    exact .inl ⟨T, hrun, rfl⟩
  · cases h.symm.trans hexec
    exact .inr ⟨e, hrun, rfl⟩

/-- OUT_LEN can hold the length of any result, since it fits OUT_BUF (R7, R157). -/
theorem succeed_outLen_toNat {i : Instr} {s : State} {T : List Byte} (hlegal : s.cfg.legal)
    (hrun : runOf i s = .ok T) : (s.succeed T).outLen.toNat = T.length := by
  have hlen := runOf_length hlegal hrun
  obtain ⟨-, -, -, -, -, hout⟩ := hlegal
  exact Nat.mod_eq_of_lt (by omega)

/-- A command whose `Run` gives a result succeeds with it. -/
theorem exec_succeedsWith {i : Instr} {s : State} {T : List Byte} (hlegal : s.cfg.legal) (hrun : runOf i s = .ok T) :
    ∃ t, exec i s = .next t ∧ succeedsWith s t T :=
  ⟨_, exec_of_ok hrun, rfl, succeed_outLen_toNat hlegal hrun, fun a => Memory.read_ofBytes_zero a T⟩

/-- Settles O35: both completions write result fields only, and OUT_BUF lists the bytes of the result. -/
theorem commandsLeaveTheirFrame : Obligations.CommandsLeaveTheirFrame := by
  intro i s t hlegal hexec
  obtain ⟨T, hrun, rfl⟩ | ⟨e, -, rfl⟩ := exec_inversion hexec
  · refine ⟨rfl, rfl, rfl, rfl, rfl, fun _ => rfl, rfl, rfl, rfl, rfl, fun a => ?_⟩
    rw [succeed_outLen_toNat hlegal hrun, State.succeed_outBuf, Memory.read_ofBytes_zero]
    simp
  · refine ⟨rfl, rfl, rfl, rfl, rfl, fun _ => rfl, rfl, rfl, rfl, rfl, fun a => ?_⟩
    simp

/-! ### Encryption (section 2) -/

/-- An encryption succeeds exactly when the input fits IN_BUF, the text fits OUT_BUF and the key length is legal
(R155 to R158). -/
theorem runEncrypt_eq_ok_iff {alg : Alg} {s : State} {T : List Byte} :
    runEncrypt alg s = .ok T ↔
      s.inLen.toNat ≤ s.cfg.inBufBytes ∧ framedLen (paddedLen s.inLen.toNat) ≤ s.cfg.outBufBytes ∧
      keyLenOk alg s.keyLen.toNat = true ∧ T = base64Encode (rawCiphertext alg s.keyBytes s.inputBytes) := by
  unfold runEncrypt withinInputCapacity encrypt
  split_ifs with hin hout hkey
  · exact ⟨nofun, fun ⟨_, _⟩ => by omega⟩
  · exact ⟨nofun, fun ⟨_, _, _⟩ => by omega⟩
  · exact ⟨nofun, fun ⟨_, _, hok, _⟩ => by simp [hkey] at hok⟩
  · exact ⟨fun h => ⟨by omega, by omega, by simpa using hkey, (Except.ok.inj h).symm⟩, fun ⟨_, _, _, hT⟩ => hT ▸ rfl⟩

/-- An encryption fails with LENGTH_OVERFLOW or INVALID_KEY_LENGTH only (R159). -/
theorem runEncrypt_error {alg : Alg} {s : State} {e : CommandError} (h : runEncrypt alg s = .error e) :
    e = .lengthOverflow ∨ e = .invalidKeyLength := by
  unfold runEncrypt withinInputCapacity encrypt at h
  split_ifs at h <;> cases h
  exacts [.inl rfl, .inl rfl, .inr rfl]

/-- Settles O28: the encryption's conditions hold, and the IV is the first 16 bytes of the key. -/
theorem encAesSucceeds : Obligations.EncAesSucceeds := by
  intro s hlegal hin hout hkey
  have hok : keyLenOk .aes s.keyLen.toNat = true := by rw [keyLenOk_iff]; tauto
  obtain ⟨t, hexec, ht⟩ := exec_succeedsWith (i := .encAes) hlegal (runEncrypt_eq_ok_iff.2 ⟨hin, hout, hok, rfl⟩)
  exact ⟨t, s.keyBytes, hexec, slice_zero _ _, by simpa only [rawCiphertext, deriveIv, slice_zero] using ht⟩

/-- Settles O29: the same under the fixed IV. -/
theorem encSm4Succeeds : Obligations.EncSm4Succeeds := by
  intro s hlegal hin hout hkey
  have hok : keyLenOk .sm4 s.keyLen.toNat = true := by rw [hkey]; rfl
  obtain ⟨t, hexec, ht⟩ := exec_succeedsWith (i := .encSm4) hlegal (runEncrypt_eq_ok_iff.2 ⟨hin, hout, hok, rfl⟩)
  rw [State.keyBytes, hkey, slice_zero] at ht
  exact ⟨t, hexec, ht⟩

/-- Settles O36: the framed length, at least one group, of an ASCII text; and the two failures. -/
theorem encryptionOutputs : Obligations.EncryptionOutputs := by
  intro alg s t hlegal hexec
  obtain ⟨T, hrun, rfl⟩ | ⟨e, hrun, rfl⟩ := exec_inversion hexec
  · have hlen := succeed_outLen_toNat hlegal hrun
    rw [runOf_encCommand] at hrun
    obtain ⟨hframed, -, -⟩ := runEncrypt_length hrun
    obtain ⟨-, -, -, hT⟩ := runEncrypt_eq_ok_iff.1 hrun
    have hout : (s.succeed T).outLen.toNat = framedLen (paddedLen s.inLen.toNat) := hlen.trans hframed
    refine ⟨fun _ => ⟨hout, fun h0 => ?_, fun a b hread => ?_⟩, nofun⟩
    · rw [h0] at hout
      simp [framedLen, paddedLen] at hout
      omega
    · rw [State.succeed_outBuf, Memory.read_ofBytes_zero, hT] at hread
      exact base64Encode_ascii (List.mem_of_getElem? hread)
  · rw [runOf_encCommand] at hrun
    refine ⟨nofun, fun _ => ?_⟩
    obtain rfl | rfl := runEncrypt_error hrun
    exacts [.inl rfl, .inr rfl]

/-! ### Decryption (section 3) -/

/-- A decryption succeeds exactly when the input fits IN_BUF and decodes to whole blocks, at least one, the key length
is legal and the decrypted buffer unpads (R155, R165). -/
theorem runDecrypt_eq_ok_iff {alg : Alg} {s : State} {T : List Byte} :
    runDecrypt alg s = .ok T ↔
      s.inLen.toNat ≤ s.cfg.inBufBytes ∧ ∃ C, base64Decode s.inputBytes = .ok C ∧ C.length ≠ 0 ∧ C.length % 16 = 0 ∧
        keyLenOk alg s.keyLen.toNat = true ∧ pkcs7Unpad (decryptedBuffer alg s.keyBytes C) = .ok T := by
  unfold runDecrypt withinInputCapacity decrypt
  split
  case isTrue => exact ⟨nofun, fun ⟨_, _⟩ => by omega⟩
  case isFalse hin =>
    cases base64Decode s.inputBytes with
    | error e => exact ⟨nofun, fun ⟨_, _, hC, _⟩ => nomatch hC⟩
    | ok C =>
      simp only [Except.ok.injEq, exists_eq_left']
      split_ifs with hlen hkey
      · exact ⟨nofun, fun ⟨_, _, _, _⟩ => by omega⟩
      · exact ⟨nofun, fun ⟨_, _, _, hok, _⟩ => by simp [hkey] at hok⟩
      · exact ⟨fun h => ⟨by omega, by omega, by omega, by simpa using hkey, h⟩, fun ⟨_, _, _, _, h⟩ => h⟩

/-- Under a legal key length the key has as many bytes as KEY_LEN says. -/
theorem keyBytes_length_of_ok {alg : Alg} {s : State} (hok : keyLenOk alg s.keyLen.toNat = true) :
    s.keyBytes.length = s.keyLen.toNat := by
  rw [keyLenOk_iff] at hok
  rw [keyBytes_length]
  omega

/-- Under a legal key length the IV is a block (R220). -/
theorem deriveIv_keyBytes_length {alg : Alg} {s : State} (hok : keyLenOk alg s.keyLen.toNat = true) :
    (deriveIv alg s.keyBytes).length = 16 := by
  refine deriveIv_length alg _ fun _ => ?_
  rw [keyBytes_length_of_ok hok]
  rw [keyLenOk_iff] at hok
  omega

/-- The decrypted buffer is as long as the ciphertext (R166). -/
theorem decryptedBuffer_length {alg : Alg} {s : State} {C : List Byte} (hok : keyLenOk alg s.keyLen.toNat = true)
    (hC : C.length % 16 = 0) : (decryptedBuffer alg s.keyBytes C).length = C.length :=
  cbcDecrypt_length alg _ (deriveIv_keyBytes_length hok) hC

/-- A decryption whose buffer ends in a marker from 1 to 16 gives the buffer less that many bytes. -/
theorem runDecrypt_of_marker {alg : Alg} {s : State} {C M : List Byte} (hin : s.inLen.toNat ≤ s.cfg.inBufBytes)
    (hdec : base64Decode s.inputBytes = .ok C) (hpos : C.length ≠ 0) (hblocks : C.length % 16 = 0)
    (hok : keyLenOk alg s.keyLen.toNat = true) (hM : M = decryptedBuffer alg s.keyBytes C) (hlow : 1 ≤ padMarker M)
    (hhigh : padMarker M ≤ 16) : runDecrypt alg s = .ok (M.take (C.length - padMarker M)) := by
  have hlen : M.length = C.length := hM ▸ decryptedBuffer_length hok hblocks
  refine runDecrypt_eq_ok_iff.2 ⟨hin, C, hdec, hpos, hblocks, hok, ?_⟩
  exact hM ▸ pkcs7Unpad_eq_ok_iff.2 ⟨hlow, hhigh, by rw [hlen]⟩

/-- Settles O30: the marker is legal, and the IV is the first 16 bytes of the key. -/
theorem decAesSucceeds : Obligations.DecAesSucceeds := by
  intro s C K M n hlegal hin hdec hpos hblocks hkey hK hM hn hlow hhigh
  subst hn
  have hok : keyLenOk .aes s.keyLen.toNat = true := by rw [keyLenOk_iff]; tauto
  have hbuffer : M = decryptedBuffer .aes s.keyBytes C := by
    rw [hM, hK, decryptedBuffer, deriveIv, State.keyBytes, slice_zero, slice_zero]
  exact exec_succeedsWith (i := .decAes) hlegal
    (runDecrypt_of_marker hin hdec hpos hblocks hok hbuffer hlow hhigh)

/-- Settles O31: the same under the fixed IV. -/
theorem decSm4Succeeds : Obligations.DecSm4Succeeds := by
  intro s C M n hlegal hin hdec hpos hblocks hkey hM hn hlow hhigh
  subst hn
  have hok : keyLenOk .sm4 s.keyLen.toNat = true := by rw [hkey]; rfl
  have hbuffer : M = decryptedBuffer .sm4 s.keyBytes C := by
    rw [hM, decryptedBuffer, deriveIv, State.keyBytes, hkey, slice_zero, sm4Iv]
  exact exec_succeedsWith (i := .decSm4) hlegal
    (runDecrypt_of_marker hin hdec hpos hblocks hok hbuffer hlow hhigh)

/-- Settles O37: the marker of the decrypted buffer is the number of bytes it lost; the rest is shorter than the
text. -/
theorem decryptionOutputs : Obligations.DecryptionOutputs := by
  intro alg s t hlegal hexec hsucc
  obtain ⟨T, hrun, rfl⟩ | ⟨e, -, rfl⟩ := exec_inversion hexec
  · have hout := succeed_outLen_toNat hlegal hrun
    have hfits := runOf_length hlegal hrun
    rw [runOf_decCommand] at hrun
    obtain ⟨hshorter, -⟩ := runDecrypt_length hrun
    obtain ⟨-, C, hdec, hpos, hblocks, hok, hunpad⟩ := runDecrypt_eq_ok_iff.1 hrun
    obtain ⟨hlow, hhigh, hT⟩ := pkcs7Unpad_eq_ok_iff.1 hunpad
    refine ⟨⟨C, _, hdec, hlow, hhigh, by omega, ?_⟩, by omega, by omega⟩
    rw [hout, hT, List.length_take, decryptedBuffer_length hok hblocks]
    omega
  · simp at hsucc

/-! ### The illegal words (section 4) -/

/-- Settles O32: ILLEGAL raises its error in any state, so also in the one acceptance leaves, whose other flags are
clear. -/
theorem illegalCommandCompletesWithCode5 : Obligations.IllegalCommandCompletesWithCode5 := by
  refine ⟨fun w s => ⟨_, exec_of_error rfl, failsWith_raise s .illegalCommand⟩,
    fun w s hbusy => busWrite_of_busy hbusy, fun w s h1 h11 h2 h12 hidle => ?_⟩
  have hillegal : decode w = .illegal w :=
    decode_of_not_legal fun hw => by rw [mem_legalWords_iff] at hw; tauto
  rw [busWrite_cmd (by decide) hidle, hillegal]
  refine ⟨_, exec_of_error rfl, ⟨rfl, fun _ => rfl⟩, BitVec.eq_of_toNat_eq ?_⟩
  rw [busReadWord_status, statusWord_toNat]
  simp [State.busyFlag, CommandError.code]

/-! ### The round trip (R187) -/

/-- The input bytes of a state that holds `P`, when `P` fits IN_BUF. -/
theorem inputBytes_of_holdsInput {s : State} {P : List Byte} (h : s.holdsInput P)
    (hfits : P.length ≤ s.cfg.inBufBytes) : s.inputBytes = P := by
  obtain ⟨hlen, hread⟩ := h
  refine List.ext_getElem (by rw [inputBytes_length, hlen]) fun i hi hiP => ?_
  have hbyte := hread i (by omega)
  simp [State.inputBytes, State.inByte, hbyte, byteAt_eq _ _ hiP]

/-- The ciphertext is as long as the padded plaintext (R157). -/
theorem rawCiphertext_length (alg : Alg) (K P : List Byte) : (rawCiphertext alg K P).length = paddedLen P.length := by
  rw [rawCiphertext, cbcEncrypt, cbcEncryptLoop_length, pkcs7Pad_length_eq, paddedLen]
  omega

/-- Decrypting a ciphertext gives the padded plaintext back (R225). -/
theorem decryptedBuffer_rawCiphertext (alg : Alg) {K : List Byte} (P : List Byte)
    (hIV : (deriveIv alg K).length = 16) : decryptedBuffer alg K (rawCiphertext alg K P) = pkcs7Pad P := by
  refine cbcDecrypt_cbcEncrypt alg K hIV ?_
  rw [pkcs7Pad_length_eq]
  omega

/-- The text of a ciphertext, held as the input under the same legal key, decrypts to the plaintext. -/
theorem runDecrypt_of_ciphertext {alg : Alg} {s : State} {P : List Byte} (hin : s.inLen.toNat ≤ s.cfg.inBufBytes)
    (hok : keyLenOk alg s.keyLen.toNat = true)
    (hinput : s.inputBytes = base64Encode (rawCiphertext alg s.keyBytes P)) : runDecrypt alg s = .ok P := by
  have hlen := rawCiphertext_length alg s.keyBytes P
  unfold paddedLen at hlen
  refine runDecrypt_eq_ok_iff.2
    ⟨hin, _, hinput ▸ base64Decode_base64Encode _, by omega, by omega, hok, ?_⟩
  rw [decryptedBuffer_rawCiphertext alg P (deriveIv_keyBytes_length hok), pkcs7Unpad_pkcs7Pad]

/-- An input longer than IN_BUF is refused before it is looked at (R155). -/
theorem runDecrypt_of_overflow {alg : Alg} {s : State} (hover : s.cfg.inBufBytes < s.inLen.toNat) :
    runDecrypt alg s = .error .lengthOverflow := if_pos hover

/-- Settles O39: each unit of the decryption undoes its unit of the encryption, when IN_BUF has room for the text. -/
theorem decryptionUndoesEncryption : Obligations.DecryptionUndoesEncryption := by
  refine ⟨fun alg s p olen hlegal hok hp hfits holen hout => ?_, fun n => by omega⟩
  have hinLen : s.inLen.toNat = p.length := hp.1
  have hinput : s.inputBytes = p := inputBytes_of_holdsInput hp hfits
  have hframed : olen = framedLen (paddedLen p.length) := holen
  have hrun : runOf (encCommand alg) s = .ok (base64Encode (rawCiphertext alg s.keyBytes p)) := by
    rw [runOf_encCommand]
    exact runEncrypt_eq_ok_iff.2 ⟨by omega, by rw [hinLen]; omega, hok, by rw [hinput]⟩
  obtain ⟨t, hexec, ht⟩ := exec_succeedsWith hlegal hrun
  have hlen : (base64Encode (rawCiphertext alg s.keyBytes p)).length = olen := by
    rw [base64Encode_length, rawCiphertext_length, hframed, framedLen]
  refine ⟨t, _, hexec, ht, hlen, fun u hcfg hkey hkeyLen hu => ?_⟩
  have huLen : u.inLen.toNat = olen := hu.1.trans hlen
  have hkeyBytes : u.keyBytes = s.keyBytes := by rw [State.keyBytes, State.keyBytes, hkey, hkeyLen]
  by_cases hroom : olen ≤ s.cfg.inBufBytes
  · have hinput : u.inputBytes = base64Encode (rawCiphertext alg u.keyBytes p) := by
      rw [hkeyBytes]
      exact inputBytes_of_holdsInput hu (by rw [hcfg]; omega)
    have hback : runOf (decCommand alg) u = .ok p := by
      rw [runOf_decCommand]
      exact runDecrypt_of_ciphertext (by rw [hcfg]; omega) (hkeyLen ▸ hok) hinput
    obtain ⟨v, hexec, hv⟩ := exec_succeedsWith (hcfg ▸ hlegal) hback
    exact ⟨v, hexec, fun _ => hv, fun _ => by omega⟩
  · have hover : runOf (decCommand alg) u = .error .lengthOverflow := by
      rw [runOf_decCommand]
      exact runDecrypt_of_overflow (by rw [hcfg]; omega)
    exact ⟨_, exec_of_error hover, fun _ => by omega, fun _ => failsWith_raise u .lengthOverflow⟩

end Sys2Proof.Machine
end

section
/-! PROOFS. The padding statements (41_pkcs7.md), from the inverse law and the marker's equations. -/

namespace Sys2Proof.Machine

/-- The marker is the last byte, whatever stands before it (R202). -/
@[simp] theorem padMarker_append_singleton (M : List Byte) (n : Byte) : padMarker (M ++ [n]) = n.toNat := by
  simp [padMarker, byteAt]

/-- A marker outside [1, 16] is refused (R202). -/
theorem pkcs7Unpad_of_badMarker {M : List Byte} (hbad : padMarker M < 1 ∨ 16 < padMarker M) :
    pkcs7Unpad M = .error .invalidPadding := if_pos hbad

/-- Settles O40: the inverse law, and both forms of the padded length from its equation. -/
theorem unpaddingUndoesPadding : Obligations.UnpaddingUndoesPadding := by
  intro P
  have hlen := pkcs7Pad_length_eq P
  exact ⟨pkcs7Unpad_pkcs7Pad P, hlen, by omega, by omega, by omega⟩

/-- Settles O41: the marker is the last byte alone, and what the decoder keeps is everything before the bytes that the
marker counts. -/
theorem unpaddingChecksTheLastByteOnly : Obligations.UnpaddingChecksTheLastByteOnly := by
  refine fun A X n _ => ⟨fun hbad => pkcs7Unpad_of_badMarker ?_, fun hlow hhigh hcount => ?_⟩
  · rwa [padMarker_append_singleton]
  · have hkept : (A ++ X ++ [n]).length - n.toNat = A.length := by
      simp only [List.length_append, List.length_singleton]
      omega
    rw [pkcs7Unpad_eq_ok_iff, padMarker_append_singleton, hkept, List.append_assoc, List.take_left]
    exact ⟨hlow, hhigh, rfl⟩

end Sys2Proof.Machine
end

section
/-! PROOFS. The CBC statements (42_cbc.md). One idea serves both directions: block `i` of `IV ++ C` is the chaining
value block `i` meets, the IV first and the ciphertext block before it from then on (R222). -/

namespace Sys2Proof.Machine

/-! ### Blocks of a sequence -/

theorem blockAt_eq (B : List Byte) (i : Nat) : blockAt B i = (B.drop (16 * i)).take 16 := by
  rw [blockAt, slice, Nat.add_sub_cancel_left]

theorem blockAt_zero (B : List Byte) : blockAt B 0 = B.take 16 := blockAt_eq B 0

theorem blockAt_drop (B : List Byte) (i : Nat) : blockAt (B.drop 16) i = blockAt B (i + 1) := by
  rw [blockAt_eq, blockAt_eq, List.drop_drop, Nat.mul_add_one, Nat.add_comm]

theorem blockAt_append_zero {A : List Byte} (hA : A.length = 16) (B : List Byte) : blockAt (A ++ B) 0 = A := by
  rw [blockAt_zero, List.take_left' hA]

theorem blockAt_append_succ {A : List Byte} (hA : A.length = 16) (B : List Byte) (i : Nat) :
    blockAt (A ++ B) (i + 1) = blockAt B i := by
  rw [← blockAt_drop, List.drop_left' hA]

/-- The block after whole blocks. -/
theorem blockAt_append_right {A B : List Byte} {i : Nat} (hA : A.length = 16 * i) (hB : B.length = 16) :
    blockAt (A ++ B) i = B := by
  rw [blockAt_eq, List.drop_left' hA, List.take_of_length_le hB.le]

/-- The chaining value of block `i`: the IV for the first, the ciphertext block before it for the others (R222). -/
theorem blockAt_iv_append {IV : List Byte} (hIV : IV.length = 16) (C : List Byte) (i : Nat) :
    blockAt (IV ++ C) i = if i = 0 then IV else (C.drop (16 * (i - 1))).take 16 := by
  cases i with
  | zero => exact blockAt_append_zero hIV C
  | succ i => rw [blockAt_append_succ hIV, blockAt_eq]; rfl

/-! ### Chaining (R223, R224) -/

theorem blockAt_cbcEncryptLoop (alg : Alg) (K : List Byte) {n i : Nat} {cv : List Byte} (M : List Byte)
    (hcv : cv.length = 16) (hi : i < n) :
    blockAt (cbcEncryptLoop alg K n cv M) i =
      blockEncrypt alg K (xorBytes (blockAt M i) (blockAt (cv ++ cbcEncryptLoop alg K n cv M) i)) := by
  induction n generalizing i cv M with
  | zero => omega
  | succ n ih =>
    have hc := blockEncrypt_length alg K (xorBytes (M.take 16) cv)
    cases i with
    | zero => rw [blockAt_append_zero hcv, blockAt_zero M, cbcEncryptLoop, blockAt_append_zero hc]
    | succ i =>
      rw [blockAt_append_succ hcv, cbcEncryptLoop, blockAt_append_succ hc, ih _ hc (by omega), blockAt_drop]

theorem blockAt_cbcDecryptLoop (alg : Alg) (K : List Byte) {n i : Nat} {cv C : List Byte} (hcv : cv.length = 16)
    (hC : 16 * n ≤ C.length) (hi : i < n) :
    blockAt (cbcDecryptLoop alg K n cv C) i =
      xorBytes (blockDecrypt alg K (blockAt C i)) (blockAt (cv ++ C) i) := by
  induction n generalizing i cv C with
  | zero => omega
  | succ n ih =>
    have hm : (xorBytes (blockDecrypt alg K (C.take 16)) cv).length = 16 := by
      rw [xorBytes_length, blockDecrypt_length, hcv, Nat.min_self]
    have hc : (C.take 16).length = 16 := by rw [List.length_take]; omega
    have hrest : 16 * n ≤ (C.drop 16).length := by rw [List.length_drop]; omega
    cases i with
    | zero => rw [blockAt_append_zero hcv, blockAt_zero C, cbcDecryptLoop, blockAt_append_zero hm]
    | succ i =>
      rw [blockAt_append_succ hcv, cbcDecryptLoop, blockAt_append_succ hm, ih hc hrest (by omega), blockAt_drop,
        List.take_append_drop]

/-- Settles O47: the chaining value of block `i` is block `i` of `IV ++ C`. -/
theorem cbcEncryptionChainsItsBlocks : Obligations.CbcEncryptionChainsItsBlocks := by
  rintro alg K IV M C N hIV hM - rfl
  have hN : M.length / 16 = N := by omega
  refine ⟨by rw [cbcEncrypt, cbcEncryptLoop_length, hN], fun i hi => ?_⟩
  rw [← blockAt_iv_append hIV, ← blockAt_eq, ← blockAt_eq]
  exact blockAt_cbcEncryptLoop alg K M hIV (hN ▸ hi)

/-- Settles O48: the chaining value is taken from the ciphertext received. -/
theorem cbcDecryptionChainsItsBlocks : Obligations.CbcDecryptionChainsItsBlocks := by
  rintro alg K IV M C N hIV hC - rfl
  refine ⟨by rw [cbcDecrypt_length alg K hIV (by omega), hC], fun i hi => ?_⟩
  rw [← blockAt_iv_append hIV, ← blockAt_eq, ← blockAt_eq]
  exact blockAt_cbcDecryptLoop alg K hIV (by omega) (by omega)

/-- Settles O49: the inverse law needs whole blocks and a whole IV only; it holds for every key. -/
theorem cbcDecryptionUndoesEncryption : Obligations.CbcDecryptionUndoesEncryption :=
  fun alg K _ _ _ _ hIV hM => cbcDecrypt_cbcEncrypt alg K hIV (by omega)

/-! ### Error propagation (R227) -/

/-- Decryption of whole blocks and what follows them: the rest starts from the last block received. -/
theorem cbcDecrypt_append (alg : Alg) (K : List Byte) {IV A : List Byte} {i : Nat} (E : List Byte)
    (hIV : IV.length = 16) (hA : A.length = 16 * i) :
    cbcDecrypt alg K IV (A ++ E) = cbcDecrypt alg K IV A ++ cbcDecrypt alg K (blockAt (IV ++ A) i) E := by
  have hcount : (A ++ E).length / 16 = i + E.length / 16 := by rw [List.length_append]; omega
  have hi : A.length / 16 = i := by omega
  simp only [cbcDecrypt, hcount, hi]
  clear hcount hi
  induction i generalizing IV A with
  | zero =>
    obtain rfl := List.eq_nil_of_length_eq_zero hA
    simp [cbcDecryptLoop, blockAt_zero, List.take_of_length_le hIV.le]
  | succ i ih =>
    have hc : (A.take 16).length = 16 := by rw [List.length_take]; omega
    have hrest : (A.drop 16).length = 16 * i := by rw [List.length_drop]; omega
    rw [Nat.add_right_comm, cbcDecryptLoop, cbcDecryptLoop, List.take_append_of_le_length (by omega),
      List.drop_append_of_le_length (by omega), ih hc hrest, List.take_append_drop, blockAt_append_succ hIV,
      List.append_assoc]

/-- What decryption makes of whole blocks does not depend on what follows them. -/
theorem take_cbcDecrypt_append (alg : Alg) (K : List Byte) {IV A : List Byte} {i : Nat} (E : List Byte)
    (hIV : IV.length = 16) (hA : A.length = 16 * i) :
    (cbcDecrypt alg K IV (A ++ E)).take (16 * i) = cbcDecrypt alg K IV A := by
  have hlen : (cbcDecrypt alg K IV A).length = 16 * i := by rw [cbcDecrypt_length alg K hIV (by omega), hA]
  rw [cbcDecrypt_append alg K E hIV hA, List.take_left' hlen]

/-- What decryption makes of the bytes after a block depends on that block alone of all before them. -/
theorem drop_cbcDecrypt_append (alg : Alg) (K : List Byte) {IV A B : List Byte} {i : Nat} (E : List Byte)
    (hIV : IV.length = 16) (hA : A.length = 16 * i) (hB : B.length = 16) :
    (cbcDecrypt alg K IV (A ++ B ++ E)).drop (16 * (i + 1)) = cbcDecrypt alg K B E := by
  have hAB : (A ++ B).length = 16 * (i + 1) := by rw [List.length_append]; omega
  have hlen : (cbcDecrypt alg K IV (A ++ B)).length = 16 * (i + 1) := by
    rw [cbcDecrypt_length alg K hIV (by omega), hAB]
  rw [cbcDecrypt_append alg K E hIV hAB, List.drop_left' hlen, blockAt_append_succ hIV, blockAt_append_right hA hB]

/-- After the first block the chaining value decryption started from has no part in the result. -/
theorem drop_cbcDecrypt (alg : Alg) (K : List Byte) {cv C : List Byte} (hcv : cv.length = 16)
    (hC : C.length % 16 = 0) :
    (cbcDecrypt alg K cv C).drop 16 = cbcDecrypt alg K (C.take 16) (C.drop 16) := by
  obtain rfl | hne := eq_or_ne C []
  · rfl
  · have hpos := List.length_pos_iff.2 hne
    have hc : (C.take 16).length = 16 := by rw [List.length_take]; omega
    simpa using drop_cbcDecrypt_append alg K (A := []) (i := 0) (C.drop 16) hcv rfl hc

/-- The first decrypted block. -/
theorem take_cbcDecrypt (alg : Alg) (K : List Byte) {cv C : List Byte} (hcv : cv.length = 16)
    (hC : 16 ≤ C.length) :
    (cbcDecrypt alg K cv C).take 16 = xorBytes (blockDecrypt alg K (C.take 16)) cv := by
  rw [← blockAt_zero, cbcDecrypt, blockAt_cbcDecryptLoop alg K hcv (by omega) (by omega), blockAt_zero,
    blockAt_append_zero hcv]

/-- A common summand cancels. -/
theorem xorBytes_xorBytes_xorBytes {X A B : List Byte} (hA : A.length = X.length) (hB : B.length = X.length) :
    xorBytes (xorBytes X A) (xorBytes X B) = xorBytes A B := by
  have hbyte : ∀ x a b : Byte, (x ^^^ a) ^^^ (x ^^^ b) = a ^^^ b := fun x a b => by
    rw [BitVec.xor_comm x a, BitVec.xor_assoc, xor_cancel_left]
  exact List.ext_getElem (by simp [hA, hB]) fun j _ _ => by simp [xorBytes, hbyte]

/-- Settles O50: the blocks before do not see the change, the block after is xored with the changed block, and the
blocks from then on are decrypted from `D` alone. -/
theorem cbcErrorPropagation : Obligations.CbcErrorPropagation := by
  intro alg K IV A B B' D i hIV hA hB hB' hD
  refine ⟨_, _, rfl, rfl, ?_, ?_, ?_, fun hne => ?_⟩
  · rw [cbcDecrypt_length alg K hIV (by simp only [List.length_append]; omega),
      cbcDecrypt_length alg K hIV (by simp only [List.length_append]; omega)]
    simp only [List.length_append, hB, hB']
  · simp only [List.append_assoc, take_cbcDecrypt_append alg K _ hIV hA]
  · have hsplit : 16 * (i + 2) = 16 * (i + 1) + 16 := by omega
    simp only [hsplit, ← List.drop_drop, drop_cbcDecrypt_append alg K D hIV hA, hB, hB', drop_cbcDecrypt, hD]
  · have hpos := List.length_pos_iff.2 hne
    rw [drop_cbcDecrypt_append alg K D hIV hA hB, drop_cbcDecrypt_append alg K D hIV hA hB',
      take_cbcDecrypt alg K hB (by omega), take_cbcDecrypt alg K hB' (by omega)]
    exact xorBytes_xorBytes_xorBytes (by rw [hB, blockDecrypt_length]) (by rw [hB', blockDecrypt_length])

end Sys2Proof.Machine
end

section
/-! PROOFS. AES (43_aes.md): the laws of the field's multiplication, the S-box tables, the key expansion's recurrence
and the inverse cipher. -/

namespace Sys2Proof.Machine

/-! ### Multiplication in GF(2^8) (R252, R253) -/

/-- The second operand's factor `x` comes out of every term of the sum. -/
theorem gfMulBits_xtime_right (n : Nat) (a b : Byte) : gfMulBits n a (xtime b) = xtime (gfMulBits n a b) := by
  induction n generalizing a b with
  | zero => exact xtime_zero.symm
  | succ n ih =>
    rw [gfMulBits, gfMulBits, xtime_xor, ih]
    split
    · rfl
    · rw [xtime_zero]

theorem gfMul_xtime_right (a b : Byte) : gfMul a (xtime b) = xtime (gfMul a b) := gfMulBits_xtime_right 8 a b

theorem gfMul_zero (a : Byte) : gfMul a 0 = 0 := gfMulBits_zero 8 a

/-- A multiplication by `a` moves inside a sum of xtime powers that the bits of `b` select: it is linear and commutes
with xtime. -/
theorem gfMul_gfMulBits (n : Nat) (a b c : Byte) : gfMul a (gfMulBits n b c) = gfMulBits n b (gfMul a c) := by
  induction n generalizing b c with
  | zero => exact gfMul_zero a
  | succ n ih =>
    rw [gfMulBits, gfMulBits, gfMul_xor_right, ih, gfMul_xtime_right]
    split
    · rfl
    · rw [gfMul_zero]

/-- The bits of `a` select the powers of `x` that sum to `a`. -/
theorem gfMul_one : ∀ a : Byte, gfMul a 1 = a := by decide +kernel

/-- Each operand is a sum of xtime powers of 1, so the two orders give the same product. -/
theorem gfMul_comm (a b : Byte) : gfMul a b = gfMul b a :=
  calc gfMul a b = gfMul a (gfMul b 1) := by rw [gfMul_one b]
    _ = gfMul b (gfMul a 1) := gfMul_gfMulBits 8 a b 1
    _ = gfMul b a := by rw [gfMul_one a]

/-- Settles O51: linearity and xtime in the second operand go over to the first by commutativity. -/
theorem gfMultiplicationLaws : Obligations.GfMultiplicationLaws := by
  intro a b c
  refine ⟨?_, gfMul_xor_right a b c, ?_, (gfMul_constants a).1, ?_, gfMul_comm a b⟩
  · rw [gfMul_comm, gfMul_xor_right, gfMul_comm c a, gfMul_comm c b]
  · rw [gfMul_comm, gfMul_one]
  · rw [gfMul_comm, gfMul_xtime_right, gfMul_comm]

/-! ### The S-box (R254 to R256) -/

/-- The table's 256 entries, each against the function, and the field inverse the function rests on (R254). Both are
checked byte by byte in one computation, which evaluates each inverse once. -/
theorem sbox_eq_sboxAlgebraic_and_gfMul_gfInv : ∀ a : Byte,
    sbox a = sboxAlgebraic a ∧ gfMul a (gfInv a) = if a = 0 then 0 else 1 := by decide +kernel

/-- Bit `i` of a byte rotated by `r` places is bit `i - r`, counted modulo 8. -/
theorem getLsbD_rotateLeft_byte (b : Byte) {r i : Nat} (hr : r < 8) (hi : i < 8) :
    (b.rotateLeft r).getLsbD i = b.getLsbD ((i + (8 - r)) % 8) := by
  rw [BitVec.getLsbD_rotateLeft_of_le hr, decide_eq_true hi, Bool.true_and]
  obtain hlt | hle := lt_or_ge i r
  · rw [decide_eq_true hlt, cond_true]; congr 1; omega
  · rw [decide_eq_false (not_lt.2 hle), cond_false]; congr 1; omega

/-- The affine map of R254 in its bitwise form. -/
theorem getLsbD_sboxAlgebraic (a : Byte) {i : Nat} (hi : i < 8) :
    (sboxAlgebraic a).getLsbD i =
      (((gfInv a).getLsbD i ^^ (gfInv a).getLsbD ((i + 4) % 8)) ^^ ((gfInv a).getLsbD ((i + 5) % 8) ^^
        (gfInv a).getLsbD ((i + 6) % 8)) ^^ ((gfInv a).getLsbD ((i + 7) % 8) ^^ (0x63 : Byte).getLsbD i)) := by
  simp only [sboxAlgebraic, BitVec.getLsbD_xor, getLsbD_rotateLeft_byte _ _ hi, Nat.reduceLT, Nat.reduceSub,
    Bool.xor_assoc, Bool.xor_comm, Bool.xor_left_comm]

/-- Settles O52: the two tables are checked entry by entry, and the rotations of the one form of the affine map are the
bits of the other. -/
theorem sboxTablesAreTheAlgebraicOnes : Obligations.SboxTablesAreTheAlgebraicOnes := by
  intro a
  obtain ⟨htable, hinv⟩ := sbox_eq_sboxAlgebraic_and_gfMul_gfInv a
  refine ⟨htable, invSbox_sbox a, hinv, fun i hi => ?_⟩
  rw [htable, getLsbD_sboxAlgebraic a hi]

/-! ### The key expansion (R266) -/

theorem wordAt_take (w : List AesWord) {i j : Nat} (h : i < j) : wordAt (w.take j) i = wordAt w i := by
  rw [wordAt, wordAt, List.getD_eq_getElem?_getD, List.getD_eq_getElem?_getD, List.getElem?_take_of_lt h]

theorem expandWords_length (n nk : Nat) (w : List AesWord) : (expandWords n nk w).length = w.length + n := by
  induction n generalizing w with
  | zero => rfl
  | succ n ih => rw [expandWords, ih, List.length_append, List.length_singleton]; omega

/-- The expansion only appends words. -/
theorem prefix_expandWords (n nk : Nat) (w : List AesWord) : w <+: expandWords n nk w := by
  induction n generalizing w with
  | zero => exact List.prefix_rfl
  | succ n ih => exact (List.prefix_append w _).trans (ih _)

/-- The words given stay as they are. -/
theorem wordAt_expandWords (n nk : Nat) (w : List AesWord) {i : Nat} (h : i < w.length) :
    wordAt (expandWords n nk w) i = wordAt w i := by
  rw [← wordAt_take (expandWords n nk w) h, ← List.prefix_iff_eq_take.1 (prefix_expandWords n nk w)]

/-- Each word appended is the next key word of the words before it. -/
theorem wordAt_expandWords_next (n nk : Nat) (w : List AesWord) {i : Nat} (hi : w.length ≤ i)
    (hin : i < w.length + n) :
    wordAt (expandWords n nk w) i = nextKeyWord nk ((expandWords n nk w).take i) := by
  induction n generalizing w with
  | zero => omega
  | succ n ih =>
    have hlen : (w ++ [nextKeyWord nk w]).length = w.length + 1 := List.length_append
    obtain rfl | hlt := hi.eq_or_lt
    · rw [← List.prefix_iff_eq_take.1 (prefix_expandWords (n + 1) nk w), expandWords,
        wordAt_expandWords n nk _ (by omega)]
      simp [wordAt]
    · exact ih _ (by omega) (by omega)

/-- The next key word after the first `i` words of a schedule, in that schedule's own words. -/
theorem nextKeyWord_take {nk i : Nat} {w : List AesWord} (hnk : 0 < nk) (hi : nk ≤ i) (hiw : i ≤ w.length) :
    nextKeyWord nk (w.take i) = xorWord (wordAt w (i - nk)) (expandTemp nk i (wordAt w (i - 1))) := by
  rw [nextKeyWord, List.length_take_of_le hiw, wordAt_take w (by omega), wordAt_take w (by omega)]

/-- Settles O53: the first words are the key's, and each word the expansion appends is the rule's. -/
theorem aesKeyExpansionRecurrence : Obligations.AesKeyExpansionRecurrence := by
  intro K Nk hNk hK
  have hnk : aesNk K = Nk := by rw [aesNk]; omega
  have hlen : (keyExpansion K).length = 4 * (Nk + 7) := by
    rw [keyExpansion, expandWords_length, List.length_map, List.length_range, aesNr, hnk]; omega
  refine ⟨_, rfl, hlen, fun i hi => ?_, fun i hi hi' => ?_⟩
  · rw [keyExpansion, hnk, wordAt_expandWords _ _ _ (by simpa using hi)]
    simp [wordAt, hi, aesWordAt]
  · have hnext : wordAt (keyExpansion K) i = nextKeyWord Nk ((keyExpansion K).take i) := by
      rw [keyExpansion, aesNr, hnk]
      exact wordAt_expandWords_next _ _ _ (by simpa using hi) (by simp only [List.length_map, List.length_range]; omega)
    rw [hnext, nextKeyWord_take (by omega) hi (by omega), expandTemp]

/-! ### The ciphers (R267, R268) -/

/-- Settles O54: the rounds undo each other whatever the round keys are, so the key's length has no part in it. -/
theorem aesDecryptionUndoesEncryption : Obligations.AesDecryptionUndoesEncryption :=
  fun K _ _ hB => aesDecrypt_aesEncrypt K hB

end Sys2Proof.Machine
end

section
/-! PROOFS. SM4 (44_sm4.md). The key schedule and the rounds are one shift register: a window of four words moves along
a sequence, and each step takes the next word from the window (R307, R309). -/

namespace Sys2Proof.Machine

/-! ### The shift register -/

/-- The window after `i` steps from `s`, when step `i` shifts in the word `next i` gives. -/
def sm4Window (next : Nat → Sm4State → Word) (s : Sm4State) : Nat → Sm4State
  | 0 => s
  | i + 1 => ⟨(sm4Window next s i).x1, (sm4Window next s i).x2, (sm4Window next s i).x3, next i (sm4Window next s i)⟩

/-- The sequence the window moves along: `k` of R307 and `X` of R309. -/
def sm4Seq (next : Nat → Sm4State → Word) (s : Sm4State) (i : Nat) : Word := (sm4Window next s i).x0

theorem sm4Window_eq (next : Nat → Sm4State → Word) (s : Sm4State) (i : Nat) :
    sm4Window next s i =
      ⟨sm4Seq next s i, sm4Seq next s (i + 1), sm4Seq next s (i + 2), sm4Seq next s (i + 3)⟩ := rfl

/-- The recurrence, whatever the next word is. -/
theorem sm4Seq_add_four (next : Nat → Sm4State → Word) (s : Sm4State) (i : Nat) :
    sm4Seq next s (i + 4) =
      next i ⟨sm4Seq next s i, sm4Seq next s (i + 1), sm4Seq next s (i + 2), sm4Seq next s (i + 3)⟩ := rfl

/-! ### The key schedule (R307) -/

/-- The loop lists the words its steps shift in. -/
theorem sm4KeyLoop_sm4Window (s : Sm4State) (n i : Nat) :
    sm4KeyLoop n i (sm4Window sm4NextKey s i) = (List.range' i n).map fun j => sm4Seq sm4NextKey s (j + 4) := by
  induction n generalizing i with
  | zero => rfl
  | succ n ih =>
    rw [List.range'_succ, List.map_cons, ← ih (i + 1)]
    rfl

/-- k[0..4): the key words xored with FK0 to FK3. -/
def sm4KeyStart (K : List Byte) : Sm4State :=
  ⟨sm4WordAt K 0 ^^^ sm4FK.x0, sm4WordAt K 4 ^^^ sm4FK.x1, sm4WordAt K 8 ^^^ sm4FK.x2, sm4WordAt K 12 ^^^ sm4FK.x3⟩

theorem sm4KeySchedule_eq (K : List Byte) :
    sm4KeySchedule K = (List.range 32).map fun i => sm4Seq sm4NextKey (sm4KeyStart K) (i + 4) := by
  rw [List.range_eq_range']
  exact sm4KeyLoop_sm4Window (sm4KeyStart K) 32 0

theorem sm4KeySchedule_length (K : List Byte) : (sm4KeySchedule K).length = 32 := sm4KeyLoop_length 32 0 _

/-- Settles O55: `k` is the sequence of the register that starts at the key words xored with FK0 to FK3. -/
theorem sm4KeyScheduleRecurrence : Obligations.Sm4KeyScheduleRecurrence :=
  fun K _ => ⟨sm4Seq sm4NextKey (sm4KeyStart K), rfl, rfl, rfl, rfl, sm4Seq_add_four sm4NextKey _, sm4KeySchedule_eq K⟩

/-! ### The ciphers (R309, R310) -/

/-- The word round `i` shifts in, under the round keys `rk` (R308). -/
def sm4NextWord (rk : List Word) (i : Nat) (s : Sm4State) : Word := sm4F s (rk.getD i 0)

/-- The first `n` rounds are `n` steps of the register. -/
theorem foldl_sm4Round_take (rk : List Word) (s : Sm4State) {n : Nat} (hn : n ≤ rk.length) :
    (rk.take n).foldl sm4Round s = sm4Window (sm4NextWord rk) s n := by
  induction n with
  | zero => rfl
  | succ n ih =>
    have hkey : rk[n] = rk.getD n 0 := (List.getD_eq_getElem rk 0 hn).symm
    rw [List.take_succ_eq_append_getElem hn, List.foldl_concat, ih (Nat.le_of_succ_le hn), hkey]
    rfl

/-- The cipher stores the last four words of the sequence, the last one first. -/
theorem sm4Cipher_eq (rk : List Word) (B : List Byte) :
    sm4Cipher rk B = sm4Store (sm4Reverse (sm4Window (sm4NextWord rk) (sm4Load B) rk.length)) := by
  rw [sm4Cipher, ← foldl_sm4Round_take rk _ le_rfl, List.take_length]

/-- Settles O56: `X` is the sequence of the register that starts at the block's words, and the window after 32 steps
holds X32 to X35. -/
theorem sm4EncryptionRecurrence : Obligations.Sm4EncryptionRecurrence := by
  intro K B _ _
  refine ⟨sm4Seq (sm4NextWord (sm4KeySchedule K)) (sm4Load B), rfl, rfl, rfl, rfl,
    fun i _ => sm4Seq_add_four _ _ i, ?_⟩
  rw [sm4Encrypt, sm4Cipher_eq, sm4KeySchedule_length, sm4Window_eq, sm4Reverse, sm4Store]

/-- Settles O57: each round undoes itself between reversals, whatever its round key is, so the key has no part in it. -/
theorem sm4DecryptionUndoesEncryption : Obligations.Sm4DecryptionUndoesEncryption :=
  fun K _ _ hB => sm4Decrypt_sm4Encrypt K hB

end Sys2Proof.Machine
end

section
/-! PROOFS. Base64 (45_base64.md): the alphabet, which texts are valid and what each kind of last group decodes to. -/

namespace Sys2Proof.Machine

/-! ### The alphabet (R340) -/

theorem base64Val_eq_some_iff {c : Byte} {v : BitVec 6} : base64Val c = some v ↔ c = base64Char v :=
  ⟨fun h => (base64Char_of_val h).symm, fun h => h ▸ base64Val_base64Char v⟩

/-- Settles O44: the table by its rows, over the 64 values. -/
theorem base64Alphabet : Obligations.Base64Alphabet :=
  ⟨by decide, fun _ _ => base64Val_eq_some_iff, rfl⟩

/-! ### The four parts and the three bytes of a group -/

/-- The 6-bit parts of four parts put together. -/
theorem parts_of_append (v0 v1 v2 v3 : BitVec 6) :
    (v0 ++ v1 ++ v2 ++ v3).extractLsb' 18 6 = v0 ∧ (v0 ++ v1 ++ v2 ++ v3).extractLsb' 12 6 = v1 ∧
      (v0 ++ v1 ++ v2 ++ v3).extractLsb' 6 6 = v2 ∧ (v0 ++ v1 ++ v2 ++ v3).extractLsb' 0 6 = v3 := by
  refine ⟨?_, ?_, ?_, ?_⟩ <;>
  · apply BitVec.eq_of_getLsbD_eq
    intro i hi
    simp only [BitVec.getLsbD_append, BitVec.getLsbD_extractLsb']
    interval_cases i <;> rfl

/-- The bytes across four parts: the second part and the third are split between two bytes each. -/
theorem append_eq_groupValue (v0 v1 v2 v3 : BitVec 6) :
    v0 ++ v1 ++ v2 ++ v3 = groupValue (v0 ++ v1.extractLsb' 4 2) (v1.extractLsb' 0 4 ++ v2.extractLsb' 2 4)
      (v2.extractLsb' 0 2 ++ v3) := by
  apply BitVec.eq_of_getLsbD_eq
  intro i hi
  unfold groupValue
  simp only [BitVec.getLsbD_append, BitVec.getLsbD_extractLsb']
  interval_cases i <;> rfl

/-- Encoding the bytes across four parts gives back the characters of the parts. -/
theorem groupChars_bytesOfParts (v0 v1 v2 v3 : BitVec 6) :
    groupChars (groupValue (v0 ++ v1.extractLsb' 4 2) (v1.extractLsb' 0 4 ++ v2.extractLsb' 2 4)
      (v2.extractLsb' 0 2 ++ v3)) = (base64Char v0, base64Char v1, base64Char v2, base64Char v3) := by
  obtain ⟨h0, h1, h2, h3⟩ := parts_of_append v0 v1 v2 v3
  rw [← append_eq_groupValue, groupChars, h0, h1, h2, h3]

/-- The bytes of a group, each put together from the values of two of its bytes (R345). -/
theorem groupBytes_eq (c0 c1 c2 c3 : Byte) :
    groupBytes c0 c1 c2 c3 =
      [valOrZero c0 ++ (valOrZero c1).extractLsb' 4 2,
        (valOrZero c1).extractLsb' 0 4 ++ (valOrZero c2).extractLsb' 2 4,
        (valOrZero c2).extractLsb' 0 2 ++ valOrZero c3].take (3 - padsInGroup c2 c3) := by
  unfold groupBytes
  simp only [append_eq_groupValue, groupValue_bytes]

theorem groupBytes_fourChars (v0 v1 v2 v3 : BitVec 6) :
    groupBytes (base64Char v0) (base64Char v1) (base64Char v2) (base64Char v3) =
      [v0 ++ v1.extractLsb' 4 2, v1.extractLsb' 0 4 ++ v2.extractLsb' 2 4, v2.extractLsb' 0 2 ++ v3] := by
  simp [groupBytes_eq, padsInGroup, base64Char_ne_padChar]

/-- Before `=` the low 2 bits of the third value are in no byte (R346). -/
theorem groupBytes_threeChars (v0 v1 v2 : BitVec 6) :
    groupBytes (base64Char v0) (base64Char v1) (base64Char v2) padChar =
      [v0 ++ v1.extractLsb' 4 2, v1.extractLsb' 0 4 ++ v2.extractLsb' 2 4] := by
  simp [groupBytes_eq, padsInGroup, base64Char_ne_padChar]

/-- Before `==` the low 4 bits of the second value are in no byte (R346). -/
theorem groupBytes_twoChars (v0 v1 : BitVec 6) :
    groupBytes (base64Char v0) (base64Char v1) padChar padChar = [v0 ++ v1.extractLsb' 4 2] := by
  simp [groupBytes_eq, padsInGroup]

/-! ### Encoding a decoded group (R348) -/

theorem extractLow_eq_zero {v : BitVec 6} {n : Nat} (h : v.toNat % 2 ^ n = 0) : v.extractLsb' 0 n = 0 := by
  apply BitVec.eq_of_toNat_eq
  simpa using h

theorem base64Encode_fourChars (v0 v1 v2 v3 : BitVec 6) (B : List Byte) :
    base64Encode (groupBytes (base64Char v0) (base64Char v1) (base64Char v2) (base64Char v3) ++ B) =
      base64Char v0 :: base64Char v1 :: base64Char v2 :: base64Char v3 :: base64Encode B := by
  rw [groupBytes_fourChars]
  simp only [List.cons_append, List.nil_append, base64Encode, groupChars_bytesOfParts]

theorem base64Encode_threeChars (v0 v1 v2 : BitVec 6) (h : v2.toNat % 4 = 0) :
    base64Encode (groupBytes (base64Char v0) (base64Char v1) (base64Char v2) padChar) =
      [base64Char v0, base64Char v1, base64Char v2, padChar] := by
  have hzero : v2.extractLsb' 0 2 ++ (0 : BitVec 6) = (0 : Byte) := by rw [extractLow_eq_zero h]; rfl
  have hchars := groupChars_bytesOfParts v0 v1 v2 0
  rw [hzero] at hchars
  rw [groupBytes_threeChars, base64Encode, hchars]

theorem base64Encode_twoChars (v0 v1 : BitVec 6) (h : v1.toNat % 16 = 0) :
    base64Encode (groupBytes (base64Char v0) (base64Char v1) padChar padChar) =
      [base64Char v0, base64Char v1, padChar, padChar] := by
  have hzero : v1.extractLsb' 0 4 ++ (0 : BitVec 6).extractLsb' 2 4 = (0 : Byte) := by rw [extractLow_eq_zero h]; rfl
  have hchars : groupChars (groupValue (v0 ++ v1.extractLsb' 4 2) 0 0) = _ := hzero ▸ groupChars_bytesOfParts v0 v1 0 0
  rw [groupBytes_twoChars, base64Encode, hchars]

/-! ### The groups before the last -/

/-- Whole groups of four characters, as R344(b) asks of the text before the last group. -/
inductive CharGroups : List Byte → Prop
  | nil : CharGroups []
  | group (v0 v1 v2 v3 : BitVec 6) {A : List Byte} (hA : CharGroups A) :
    CharGroups (base64Char v0 :: base64Char v1 :: base64Char v2 :: base64Char v3 :: A)

/-- Characters, a multiple of four of them, stand in whole groups. -/
theorem CharGroups.of_mem : ∀ {A : List Byte}, A.length % 4 = 0 → (∀ c ∈ A, isBase64Char c = true) → CharGroups A
  | [], _, _ => .nil
  | [_], hlen, _ => absurd hlen (by simp)
  | [_, _], hlen, _ => absurd hlen (by simp)
  | [_, _, _], hlen, _ => absurd hlen (by simp)
  | c0 :: c1 :: c2 :: c3 :: A, hlen, hchars => by
    simp only [List.forall_mem_cons] at hchars
    obtain ⟨h0, h1, h2, h3, hA⟩ := hchars
    obtain ⟨v0, rfl⟩ := exists_value h0
    obtain ⟨v1, rfl⟩ := exists_value h1
    obtain ⟨v2, rfl⟩ := exists_value h2
    obtain ⟨v3, rfl⟩ := exists_value h3
    exact .group v0 v1 v2 v3 (.of_mem (by simp only [List.length_cons] at hlen; omega) hA)

theorem CharGroups.length_mod {A : List Byte} (h : CharGroups A) : A.length % 4 = 0 := by
  induction h with
  | nil => rfl
  | group v0 v1 v2 v3 _ ih => simp only [List.length_cons]; omega

theorem CharGroups.allChars {A : List Byte} (h : CharGroups A) : ∀ c ∈ A, isBase64Char c = true := by
  induction h with
  | nil => simp
  | group v0 v1 v2 v3 _ ih => simpa using ih

/-- A single group decodes to its bytes. -/
theorem decodeGroups_group (c0 c1 c2 c3 : Byte) : decodeGroups [c0, c1, c2, c3] = groupBytes c0 c1 c2 c3 :=
  List.append_nil _

theorem CharGroups.decodeGroups_append {A : List Byte} (h : CharGroups A) (T : List Byte) :
    decodeGroups (A ++ T) = decodeGroups A ++ decodeGroups T := by
  induction h with
  | nil => rfl
  | group v0 v1 v2 v3 _ ih => simp [decodeGroups, ih]

/-- Whole groups decode to whole groups, which encode back one by one whatever follows them. -/
theorem CharGroups.base64Encode_append {A : List Byte} (h : CharGroups A) (B : List Byte) :
    base64Encode (decodeGroups A ++ B) = A ++ base64Encode B := by
  induction h with
  | nil => rfl
  | group v0 v1 v2 v3 _ ih => rw [decodeGroups, List.append_assoc, base64Encode_fourChars, ih]; rfl

theorem CharGroups.base64Valid_append {A : List Byte} (h : CharGroups A) (c0 c1 c2 c3 : Byte) :
    base64Valid (A ++ [c0, c1, c2, c3]) = lastGroupOk c0 c1 c2 c3 := by
  induction h with
  | nil => rfl
  | group v0 v1 v2 v3 _ ih =>
    simp only [List.cons_append]
    rw [base64Valid_group _ _ _ _ (by simp), ih]
    simp [innerGroupOk]

/-! ### Valid texts (R344) -/

theorem lastGroupOk_iff {c0 c1 c2 c3 : Byte} : lastGroupOk c0 c1 c2 c3 = true ↔
    isBase64Char c0 = true ∧ isBase64Char c1 = true ∧
      ((isBase64Char c2 = true ∧ isBase64Char c3 = true) ∨ (isBase64Char c2 = true ∧ c3 = padChar) ∨
        (c2 = padChar ∧ c3 = padChar)) := by
  simp [lastGroupOk, and_assoc, or_assoc]

theorem lastGroupOk_threeChars (v0 v1 v2 : BitVec 6) :
    lastGroupOk (base64Char v0) (base64Char v1) (base64Char v2) padChar = true := by simp [lastGroupOk]

theorem lastGroupOk_twoChars (v0 v1 : BitVec 6) :
    lastGroupOk (base64Char v0) (base64Char v1) padChar padChar = true := by simp [lastGroupOk]

/-- A valid text is empty, or whole groups of characters and a legal last group. -/
theorem base64Valid_iff {T : List Byte} : base64Valid T = true ↔
    T = [] ∨ ∃ A c0 c1 c2 c3, T = A ++ [c0, c1, c2, c3] ∧ CharGroups A ∧ lastGroupOk c0 c1 c2 c3 = true := by
  constructor
  · intro hvalid
    fun_induction base64Valid T with
    | case1 => exact .inl rfl
    | case2 c0 c1 c2 c3 => exact .inr ⟨[], c0, c1, c2, c3, rfl, .nil, hvalid⟩
    | case3 c0 c1 c2 c3 rest hrest ih =>
      obtain ⟨hinner, hvalid⟩ := Bool.and_eq_true_iff.1 hvalid
      obtain rfl | ⟨A, d0, d1, d2, d3, rfl, hA, hlast⟩ := ih hvalid
      · exact absurd rfl hrest
      · have hlen := hA.length_mod
        refine .inr ⟨c0 :: c1 :: c2 :: c3 :: A, d0, d1, d2, d3, rfl, .of_mem ?_ ?_, hlast⟩
        · simp only [List.length_cons]; omega
        · simpa [innerGroupOk, and_assoc] using And.intro hinner hA.allChars
    | case4 => cases hvalid
  · rintro (rfl | ⟨A, c0, c1, c2, c3, rfl, hA, hlast⟩)
    · rfl
    · rw [hA.base64Valid_append, hlast]

theorem base64Decode_eq_ok_iff {T B : List Byte} :
    base64Decode T = .ok B ↔ base64Valid T = true ∧ decodeGroups T = B := by
  unfold base64Decode
  split <;> simp_all

/-- The bytes before the last group, by their positions. -/
theorem forall_byteAt_append_iff {P : Byte → Prop} (A : List Byte) (c0 c1 c2 c3 : Byte) :
    (∀ i, i + 4 < (A ++ [c0, c1, c2, c3]).length → P (byteAt (A ++ [c0, c1, c2, c3]) i)) ↔ ∀ c ∈ A, P c := by
  have hbyte : ∀ i (hi : i < A.length), byteAt (A ++ [c0, c1, c2, c3]) i = A[i] := fun i hi => by
    rw [byteAt, List.getD_append _ _ _ _ hi, List.getD_eq_getElem _ _ hi]
  have hlen : ∀ i, i + 4 < (A ++ [c0, c1, c2, c3]).length ↔ i < A.length := by simp
  simp only [hlen, List.forall_mem_iff_forall_getElem]
  exact forall₂_congr fun i hi => by rw [hbyte i hi]

/-- Settles O43: the text before the last group, read byte by byte, is whole groups of characters. -/
theorem base64ValidTexts : Obligations.Base64ValidTexts := by
  intro T
  have hdecodes : (∃ B, base64Decode T = .ok B) ↔ base64Valid T = true := by simp [base64Decode_eq_ok_iff]
  refine ⟨?_, fun hnone => ?_⟩
  · rw [hdecodes, base64Valid_iff]
    constructor
    · rintro (rfl | ⟨A, c0, c1, c2, c3, rfl, hA, hlast⟩)
      · simp
      · exact ⟨by simpa using hA.length_mod, (forall_byteAt_append_iff A ..).2 hA.allChars,
          fun _ => ⟨A, c0, c1, c2, c3, rfl, lastGroupOk_iff.1 hlast⟩⟩
    · rintro ⟨hlen, hchars, hlast⟩
      by_cases hT : T = []
      · exact .inl hT
      · obtain ⟨A, c0, c1, c2, c3, rfl, hok⟩ := hlast hT
        exact .inr ⟨A, c0, c1, c2, c3, rfl,
          .of_mem (by simpa using hlen) ((forall_byteAt_append_iff A ..).1 hchars), lastGroupOk_iff.2 hok⟩
  · have hinvalid : ¬ base64Valid T = true := fun hvalid => (hdecodes.2 hvalid).elim hnone
    exact if_neg hinvalid

/-! ### Decoding whole groups and a last group -/

theorem CharGroups.base64Decode_append {A : List Byte} (hA : CharGroups A) {c0 c1 c2 c3 : Byte}
    (hlast : lastGroupOk c0 c1 c2 c3 = true) :
    base64Decode (A ++ [c0, c1, c2, c3]) = .ok (decodeGroups A ++ groupBytes c0 c1 c2 c3) := by
  rw [base64Decode, if_pos ((hA.base64Valid_append ..).trans hlast), hA.decodeGroups_append, decodeGroups_group]

/-- Last groups with the same bytes make texts with the same bytes. -/
theorem CharGroups.base64Decode_append_congr {A : List Byte} (hA : CharGroups A) {c0 c1 c2 c3 d0 d1 d2 d3 : Byte}
    (hc : lastGroupOk c0 c1 c2 c3 = true) (hd : lastGroupOk d0 d1 d2 d3 = true)
    (hbytes : groupBytes c0 c1 c2 c3 = groupBytes d0 d1 d2 d3) :
    ∃ B, base64Decode (A ++ [c0, c1, c2, c3]) = .ok B ∧ base64Decode (A ++ [d0, d1, d2, d3]) = .ok B :=
  ⟨_, hA.base64Decode_append hc, hbytes ▸ hA.base64Decode_append hd⟩

/-- The bits from `n` up are those of the quotient by `2 ^ n`. -/
theorem extractHigh_congr {v v' : BitVec 6} {n k : Nat} (h : v.toNat / 2 ^ n = v'.toNat / 2 ^ n) :
    v.extractLsb' n k = v'.extractLsb' n k := by
  apply BitVec.eq_of_toNat_eq
  simp only [BitVec.extractLsb'_toNat, Nat.shiftRight_eq_div_pow, h]

/-- Settles O46: the bytes of a padded last group depend on the high bits of the last character only. -/
theorem base64PadBitsAreDiscarded : Obligations.Base64PadBitsAreDiscarded := by
  intro A c0 c1 c1' c2 c2' v v' hlen hchars hc0
  have hA := CharGroups.of_mem hlen hchars
  obtain ⟨v0, rfl⟩ := exists_value hc0
  refine ⟨fun hv hv' hhigh => ?_, fun hc1 hv hv' hhigh => ?_⟩
  · obtain ⟨rfl, rfl⟩ := And.intro (base64Char_of_val hv) (base64Char_of_val hv')
    have hbytes : groupBytes (base64Char v0) (base64Char v) padChar padChar =
        groupBytes (base64Char v0) (base64Char v') padChar padChar := by
      rw [groupBytes_twoChars, groupBytes_twoChars, extractHigh_congr (n := 4) hhigh]
    exact hA.base64Decode_append_congr (lastGroupOk_twoChars v0 v) (lastGroupOk_twoChars v0 v') hbytes
  · obtain ⟨v1, rfl⟩ := exists_value hc1
    obtain ⟨rfl, rfl⟩ := And.intro (base64Char_of_val hv) (base64Char_of_val hv')
    have hbytes : groupBytes (base64Char v0) (base64Char v1) (base64Char v) padChar =
        groupBytes (base64Char v0) (base64Char v1) (base64Char v') padChar := by
      rw [groupBytes_threeChars, groupBytes_threeChars, extractHigh_congr (n := 2) hhigh]
    exact hA.base64Decode_append_congr (lastGroupOk_threeChars v0 v1 v) (lastGroupOk_threeChars v0 v1 v') hbytes

/-- Settles O42: the groups of the text encode back one by one, and the last of them by its kind. -/
theorem base64InverseLaws : Obligations.Base64InverseLaws := by
  refine ⟨base64Decode_base64Encode, fun T B hdec hpad2 hpad1 => ?_⟩
  obtain ⟨hvalid, rfl⟩ := base64Decode_eq_ok_iff.1 hdec
  obtain rfl | ⟨A, c0, c1, c2, c3, rfl, hA, hlast⟩ := base64Valid_iff.1 hvalid
  · rfl
  · obtain ⟨h0, h1, hkind⟩ := lastGroupOk_iff.1 hlast
    obtain ⟨v0, rfl⟩ := exists_value h0
    obtain ⟨v1, rfl⟩ := exists_value h1
    rw [hA.decodeGroups_append, hA.base64Encode_append, decodeGroups_group]
    congr 1
    obtain ⟨h2, h3⟩ | ⟨h2, rfl⟩ | ⟨rfl, rfl⟩ := hkind
    · obtain ⟨v2, rfl⟩ := exists_value h2
      obtain ⟨v3, rfl⟩ := exists_value h3
      simpa [base64Encode] using base64Encode_fourChars v0 v1 v2 v3 []
    · obtain ⟨v2, rfl⟩ := exists_value h2
      exact base64Encode_threeChars v0 v1 v2 (hpad1 A _ _ _ rfl v2 (base64Val_base64Char v2))
    · exact base64Encode_twoChars v0 v1 (hpad2 A _ _ rfl v1 (base64Val_base64Char v1))

/-! ### The pads of an encoded text (R341) -/

/-- An encoded text is characters, then a pad for each byte its last group lacks. -/
theorem base64Encode_eq_chars_pads (B : List Byte) :
    ∃ A, base64Encode B = A ++ List.replicate ((3 - B.length % 3) % 3) padChar ∧ ∀ c ∈ A, isBase64Char c = true := by
  fun_induction base64Encode B with
  | case1 => exact ⟨[], rfl, by simp⟩
  | case2 b0 c => exact ⟨[c.1, c.2.1], rfl, by simp [c, groupChars]⟩
  | case3 b0 b1 c => exact ⟨[c.1, c.2.1, c.2.2.1], rfl, by simp [c, groupChars]⟩
  | case4 b0 b1 b2 rest c ih =>
    obtain ⟨A, hA, hchars⟩ := ih
    refine ⟨c.1 :: c.2.1 :: c.2.2.1 :: c.2.2.2 :: A, ?_, by simpa [c, groupChars] using hchars⟩
    simp [hA, Nat.add_assoc]

/-- Settles O45: the number of pads for each remainder of the length. -/
theorem base64EncodedLengthAndPads : Obligations.Base64EncodedLengthAndPads := by
  intro B
  obtain ⟨A, hA, hchars⟩ := base64Encode_eq_chars_pads B
  refine ⟨base64Encode_length B, fun hn => ?_, fun hn => ⟨A, ?_, hchars⟩, fun hn => ⟨A, ?_, hchars⟩⟩
  · simpa [hA, hn] using hchars
  · rw [hA, hn]; rfl
  · rw [hA, hn]; rfl

end Sys2Proof.Machine
end

section
/-! PROOFS. The exceptions (60_exceptions.md): a completion reports 0 or the code of the error its `Run` raises, and
each `Run` raises the first failure in the order of R408. -/

namespace Sys2Proof.Machine

/-! ### No command hangs or faults (R412) -/

/-- Settles O7: every command completes, and each of the things a step can do answers a next state. -/
theorem everyStepReachesANextState : Obligations.EveryStepReachesANextState := by
  refine ⟨exec_completes, fun s => ?_⟩
  obtain ⟨ts, ⟨-, hs⟩ | ⟨-, hs⟩ | ⟨k, hs⟩ | hs⟩ := step_cases s
  · obtain ⟨t, hexec, -⟩ := exec_completes (decode s.curCmd) (s.setSchedule ts)
    exact ⟨t, hs.trans hexec⟩
  · exact ⟨_, hs⟩
  · exact ⟨_, hs⟩
  · exact ⟨_, hs⟩

/-! ### A failed command publishes nothing (R410) -/

/-- Settles O34: a success clears ERROR, so the command was completed by raising an error. -/
theorem failedCommandPublishesNothing : Obligations.FailedCommandPublishesNothing := by
  intro i s t hexec herror
  obtain ⟨T, -, rfl⟩ | ⟨e, -, rfl⟩ := exec_inversion hexec
  · simp at herror
  · exact ⟨failsWith_raise s e, e.code_ne_zero, (code_range e).2⟩

/-! ### The code a completion reports (R400, R408) -/

/-- ERR_CODE after a completion, by what `Run` returned (R153, R400). -/
def reportedCode : Except CommandError (List Byte) → BitVec 4
  | .ok _ => 0
  | .error e => e.code

/-- A completion reports the code of its `Run`: 0 exactly for a success, any other with the frame of a failure. -/
theorem exec_reports (i : Instr) (s : State) : ∃ t, exec i s = .next t ∧ t.errCode = reportedCode (runOf i s) ∧
    (reportedCode (runOf i s) ≠ 0 → failsWith s t (reportedCode (runOf i s))) ∧
    (reportedCode (runOf i s) = 0 → t.error = false) := by
  obtain ⟨T, hrun, hexec⟩ | ⟨e, hrun, hexec⟩ := exec_cases i s <;> rw [hrun]
  · exact ⟨_, hexec, rfl, fun hcode => absurd rfl hcode, fun _ => rfl⟩
  · exact ⟨_, hexec, rfl, fun _ => failsWith_raise s e, fun hcode => absurd hcode e.code_ne_zero⟩

/-- The order of an encryption: LENGTH_OVERFLOW of the input, of the output, INVALID_KEY_LENGTH (R408). -/
theorem reportedCode_runEncrypt (alg : Alg) (s : State) :
    reportedCode (runEncrypt alg s) =
      if s.cfg.inBufBytes < s.inLen.toNat then 6
      else if s.cfg.outBufBytes < framedLen (paddedLen s.inLen.toNat) then 6
      else if keyLenOk alg s.keyLen.toNat = false then 1
      else 0 := by
  simp only [runEncrypt, withinInputCapacity, encrypt, apply_ite reportedCode]
  rfl

/-- Unpadding reports INVALID_PADDING exactly for a marker outside [1, 16] (R202). -/
theorem reportedCode_pkcs7Unpad (M : List Byte) :
    reportedCode (pkcs7Unpad M) = if padMarker M < 1 ∨ 16 < padMarker M then 4 else 0 :=
  apply_ite reportedCode _ _ _

/-- An input that fits IN_BUF is left to the command proper (R155). -/
theorem runDecrypt_of_fits {alg : Alg} {s : State} (hin : s.inLen.toNat ≤ s.cfg.inBufBytes) :
    runDecrypt alg s = decrypt alg s := if_neg (by omega)

/-- A text that is not valid base64 is refused before its length and the key are looked at (R344, R408). -/
theorem decrypt_of_invalidText {alg : Alg} {s : State} (hvalid : base64Valid s.inputBytes = false) :
    decrypt alg s = .error .invalidEncoding := by
  rw [decrypt, base64Decode, hvalid]
  rfl

/-- The order of a decryption whose text decodes: INVALID_CIPHERTEXT_LENGTH, INVALID_KEY_LENGTH, INVALID_PADDING
(R408). -/
theorem reportedCode_decrypt {alg : Alg} {s : State} {C : List Byte} (hdec : base64Decode s.inputBytes = .ok C) :
    reportedCode (decrypt alg s) =
      if C.length = 0 ∨ C.length % 16 ≠ 0 then 3
      else if keyLenOk alg s.keyLen.toNat = false then 1
      else reportedCode (pkcs7Unpad (decryptedBuffer alg s.keyBytes C)) := by
  simp only [decrypt, hdec, apply_ite reportedCode]
  rfl

/-- Settles O33: the code reported is that of the command's `Run`, whose checks stand in the order of R408. -/
theorem firstFailureInPriorityOrderIsReported : Obligations.FirstFailureInPriorityOrderIsReported := by
  intro i s _
  obtain ⟨t, hexec, hcode, hfails, hsucceeds⟩ := exec_reports i s
  refine ⟨t, _, hexec, hcode, hfails, hsucceeds, ?_, ?_, ?_⟩
  · rintro w rfl
    rfl
  · rintro alg rfl
    rw [runOf_encCommand]
    exact reportedCode_runEncrypt alg s
  · rintro alg rfl
    rw [runOf_decCommand]
    refine ⟨fun hover => ?_, fun hin hvalid => ?_, fun C M hin hdec hM => ?_⟩
    · rw [runDecrypt_of_overflow hover]
      rfl
    · rw [runDecrypt_of_fits hin, decrypt_of_invalidText hvalid]
      rfl
    · have hbuffer : M = decryptedBuffer alg s.keyBytes C := by
        rw [hM, decryptedBuffer, State.keyBytes, slice_zero]
      rw [runDecrypt_of_fits hin, reportedCode_decrypt hdec, ← hbuffer, reportedCode_pkcs7Unpad]
      rfl

end Sys2Proof.Machine
end

section
/-! PROOFS. Reset and the hazard of a write that follows a CMD write (70_reset_and_hazards.md): what a reset turn leaves,
and that the completion's place among the master's turns decides between landing and dropping. -/

namespace Sys2Proof.Machine

/-! ### Reset (R450) -/

/-- The core holds the values of 10_state.md R55: each register word 0, each key byte 0, no buffer byte specified. -/
def State.HoldsResetValues (t : State) : Prop :=
  t.phase = .idle ∧ busReadWord 0x0004 t = 0 ∧ t.keyLen = 0 ∧ t.inLen = 0 ∧ t.outLen = 0 ∧
    (∀ i < 32, byteAt t.key.toList i = 0) ∧ (∀ a, t.inBuf.read a = none) ∧ ∀ a, t.outBuf.read a = none

theorem assertReset_holdsResetValues (s : State) : s.assertReset.HoldsResetValues := by
  refine ⟨rfl, ?_, rfl, rfl, rfl, fun i hi => ?_, Memory.read_nil, Memory.read_nil⟩
  · rw [busReadWord_status]
    simp [State.statusWord, State.busyFlag, flagBit]
  · rw [byteAt_key _ hi, State.assertReset_key, Vector.getElem_replicate]

theorem reset_holdsResetValues : State.reset.HoldsResetValues := by
  rw [← assertReset_reset]
  exact assertReset_holdsResetValues State.reset

/-- Settles O58: a listed reset turn asserts reset, whatever the phase, and the machine's first state is what asserting
reset leaves. -/
theorem resetClearsTheCore : Obligations.ResetClearsTheCore :=
  ⟨fun s ts hts => ⟨_, step_listed_reset hts, assertReset_holdsResetValues (s.setSchedule ts)⟩, reset_holdsResetValues⟩

/-! ### A write after the CMD write (R459) -/

/-- The program runs and stands at a line that writes `v` to `off`. -/
structure Master.WritesNext (m : Master) (off : Offset) (v : Word) : Prop where
  running : m.status = .running
  noPending : m.pendingReads = []
  line : ∃ l, m.prog[m.pc]? = some l ∧ l.stmt = .w32 off v

theorem masterStep_writesNext {m : Master} {off : Offset} {v : Word} (h : m.WritesNext off v) (s : State) :
    masterStep m s = (m.advance, busWrite off v s) := by
  obtain ⟨l, hline, hst⟩ := h.line
  rw [masterStep_line s h.running h.noPending hline, hst, runStmt]

/-- The turn of the only master, at a W32 line: its bus write, and on to the next line (R129). -/
theorem step_listed_write {s : State} {m : Master} {off : Offset} {v : Word} {ts : List Turn}
    (hts : s.schedule = .master 0 :: ts) (hms : s.masters = [m]) (h : m.WritesNext off v) :
    step s = .next ((busWrite off v (s.setSchedule ts)).setMasters [m.advance]) := by
  obtain ⟨-, -, hmasters, -, -⟩ := busWrite_frame off v (s.setSchedule ts)
  rw [step_listed_master hts, masterTurn, State.setSchedule_masters, hms]
  simp [masterStep_writesNext h, hmasters, hms]

/-- A listed core's turn while BUSY completes the command; IN_LEN, WRITE_DROPPED, the masters and the turns after it are
not the completion's to change (R153). -/
theorem step_listed_core_frame {s : State} {ts : List Turn} (hts : s.schedule = .core :: ts) (hbusy : s.phase = .busy) :
    ∃ t, step s = .next t ∧ t.phase = .idle ∧ t.done = true ∧ t.inLen = s.inLen ∧ t.writeDropped = s.writeDropped ∧
      t.masters = s.masters ∧ t.schedule = ts := by
  rw [step_listed_core hts hbusy]
  obtain ⟨T, -, h⟩ | ⟨e, -, h⟩ := exec_cases (decode s.curCmd) (s.setSchedule ts)
  · exact ⟨_, h, rfl, rfl, rfl, rfl, rfl, rfl⟩
  · exact ⟨_, h, rfl, rfl, rfl, rfl, rfl, rfl⟩

/-- The turn of the CMD write while IDLE: acceptance keeps IN_LEN and clears WRITE_DROPPED (R150). -/
theorem step_listed_cmdWrite {s : State} {m : Master} {w : Word} {ts : List Turn} (hidle : s.phase = .idle)
    (hts : s.schedule = .master 0 :: ts) (hms : s.masters = [m]) (h : m.WritesNext 0x0000 w) :
    ∃ t, step s = .next t ∧ t.phase = .busy ∧ t.inLen = s.inLen ∧ t.writeDropped = false ∧ t.masters = [m.advance] ∧
      t.schedule = ts := by
  refine ⟨_, step_listed_write hts hms h, ?_⟩
  rw [busWrite_cmd (by decide) ((State.setSchedule_phase s ts).trans hidle)]
  exact ⟨rfl, rfl, rfl, rfl, rfl⟩

/-- The turn of a write to any offset while BUSY: the write is dropped, and that is recorded (R92). -/
theorem step_listed_droppedWrite {s : State} {m : Master} {off : Offset} {v : Word} {ts : List Turn}
    (hbusy : s.phase = .busy) (hts : s.schedule = .master 0 :: ts) (hms : s.masters = [m])
    (h : m.WritesNext off v) :
    ∃ t, step s = .next t ∧ t.phase = .busy ∧ t.inLen = s.inLen ∧ t.writeDropped = true ∧ t.schedule = ts := by
  refine ⟨_, step_listed_write hts hms h, ?_⟩
  rw [busWrite_of_busy ((State.setSchedule_phase s ts).trans hbusy)]
  exact ⟨hbusy, rfl, rfl, rfl⟩

/-- The turn of an IN_LEN write while IDLE: the low 16 bits land, and no flag moves (R88). -/
theorem step_listed_inLenWrite {s : State} {m : Master} {v : Word} {ts : List Turn} (hidle : s.phase = .idle)
    (hts : s.schedule = .master 0 :: ts) (hms : s.masters = [m]) (h : m.WritesNext 0x000C v) :
    ∃ t, step s = .next t ∧ t.phase = .idle ∧ t.inLen = BitVec.ofNat 16 v.toNat ∧ t.writeDropped = s.writeDropped ∧
      t.done = s.done := by
  obtain ⟨-, -, hwrite, -⟩ := (registerWordsWrite (s.setSchedule ts) v).1 hidle
  refine ⟨_, step_listed_write hts hms h, ?_⟩
  rw [hwrite]
  exact ⟨hidle, rfl, rfl, rfl⟩

/-- The completion before the IN_LEN write: the write finds the core IDLE and lands. -/
theorem run_completion_before_write {s : State} {m : Master} {w v : Word} (hidle : s.phase = .idle)
    (hts : s.schedule = [.master 0, .core, .master 0]) (hms : s.masters = [m]) (hcmd : m.WritesNext 0x0000 w)
    (hlen : m.advance.WritesNext 0x000C v) :
    ∃ t, Sys2Proof.core.run 3 s = .next t ∧ t.inLen.toNat = v.toNat % 65536 ∧ t.writeDropped = false ∧ t.done = true ∧
      t.phase = .idle := by
  obtain ⟨s₁, haccept, hbusy₁, -, hdropped₁, hms₁, hts₁⟩ := step_listed_cmdWrite hidle hts hms hcmd
  obtain ⟨s₂, hcore, hidle₂, hdone₂, -, hdropped₂, hms₂, hts₂⟩ := step_listed_core_frame hts₁ hbusy₁
  obtain ⟨t, hwrite, hidle₃, hinLen₃, hdropped₃, hdone₃⟩ :=
    step_listed_inLenWrite hidle₂ hts₂ (hms₂.trans hms₁) hlen
  refine ⟨t, ?_, ?_, ?_, hdone₃.trans hdone₂, hidle₃⟩
  · rw [run_succ haccept, run_succ hcore, run_one hwrite]
  · rw [hinLen₃, BitVec.toNat_ofNat]
  · rw [hdropped₃, hdropped₂, hdropped₁]

/-- The IN_LEN write before the completion: the write finds the core BUSY and is dropped. -/
theorem run_write_before_completion {s : State} {m : Master} {w v : Word} (hidle : s.phase = .idle)
    (hts : s.schedule = [.master 0, .master 0, .core]) (hms : s.masters = [m]) (hcmd : m.WritesNext 0x0000 w)
    (hlen : m.advance.WritesNext 0x000C v) :
    ∃ t, Sys2Proof.core.run 3 s = .next t ∧ t.inLen = s.inLen ∧ t.writeDropped = true ∧ t.done = true ∧
      t.phase = .idle := by
  obtain ⟨s₁, haccept, hbusy₁, hinLen₁, -, hms₁, hts₁⟩ := step_listed_cmdWrite hidle hts hms hcmd
  obtain ⟨s₂, hwrite, hbusy₂, hinLen₂, hdropped₂, hts₂⟩ := step_listed_droppedWrite hbusy₁ hts₁ hms₁ hlen
  obtain ⟨t, hcore, hidle₃, hdone₃, hinLen₃, hdropped₃, -, -⟩ := step_listed_core_frame hts₂ hbusy₂
  refine ⟨t, ?_, ?_, hdropped₃.trans hdropped₂, hdone₃, hidle₃⟩
  · rw [run_succ haccept, run_succ hwrite, run_one hcore]
  · rw [hinLen₃, hinLen₂, hinLen₁]

/-- Settles O13: one run with the completion between the two writes, one with it after them. -/
theorem writeAfterCommandMayLandOrBeDropped : Obligations.WriteAfterCommandMayLandOrBeDropped := by
  intro s m w v l0 l1 hidle hms hrun hpending hline0 hline1 hst0 hst1
  have hcmd : m.WritesNext 0x0000 w := ⟨hrun, hpending, l0, hline0, hst0⟩
  have hlen : m.advance.WritesNext 0x000C v := ⟨hrun, hpending, l1, hline1, hst1⟩
  exact ⟨run_completion_before_write hidle rfl hms hcmd hlen, run_write_before_completion hidle rfl hms hcmd hlen⟩

end Sys2Proof.Machine
end
